-- ==== Sys2Proof/Word.lean ====
section
/-! DEFINITION. The widths of the spec's values (00_scope.md R8, R9): a Word is 32 bits and a byte 8 bits, both
unsigned (40_word_arithmetic.md R110). A command word is the 10 bits of `in_cmd` (30_encoding.md R90). -/

namespace Sys2Proof

/-- A 32-bit unsigned word whose addition wraps (R110). -/
abbrev Word := BitVec 32

/-- Eight bits; bit 7 is the most significant (20_memory.md R62). -/
abbrev Byte := BitVec 8

/-- The command word `in_cmd[9:0]` (R90). -/
abbrev CmdWord := BitVec 10

/-- Eight words: the shape of the chaining value and of the working words (10_state.md R21, R22). -/
abbrev Words8 := Vector Word 8

/-- A block: 64 bytes (00_scope.md R14). -/
abbrev Block := Vector Byte 64

end Sys2Proof
end

