-- ==== Sys2Proof/Config.lean ====
section
/-! DEFINITION. The free values: what the spec leaves without a value and the machine goes on. They have no body, so no
proof can see a value of them. They stand for `H`, `V`, `WIN` and `BUF` after an edge with `rst = 1`, which 10_state.md R37
leaves unspecified ("they keep whatever they held, and after power-up that is arbitrary"); assumption log entry 4.
The spec leaves no parameter open to an implementation (00_scope.md R8). -/

namespace Sys2Proof

/-- The word registers that a reset edge leaves unspecified (10_state.md R37). -/
inductive Config.Unreset where
  | H
  | V
  | WIN
  deriving DecidableEq, Repr

/-- Element `i` of register `r` after the `draw`-th reset edge, where it held `old` before. Keeping `old` is one of the
values this may be; nothing says that it is the one. -/
opaque Config.wordAfterReset (draw : Nat) (r : Config.Unreset) (i : Nat) (old : Word) : Word

/-- Byte `i` of `BUF` after the `draw`-th reset edge, where it held `old` before. -/
opaque Config.byteAfterReset (draw : Nat) (i : Nat) (old : Byte) : Byte

end Sys2Proof
end

