-- ==== Sys2Proof/Syntax.lean ====
section
/-! DEFINITION. The rows of spec/opcode_table.json as one inductive, one constructor a row, and the form in which an
encoding of one is handed about. Four rows are host commands (format CW10, 30_encoding.md R92); four are the
micro-operations the phase register selects (format PH3, R96). The `data` bits of INIT, FINAL and RSV are ignored (R93),
so those constructors have no operand. -/

namespace Sys2Proof

/-- One row of the opcode table. -/
inductive Instr where
  /-- INIT: open a new message (46_host_commands.md R211). -/
  | init
  /-- DATA: append one message byte (R212). -/
  | data (b : Byte)
  /-- FINAL: close the message (R213). -/
  | final
  /-- RSV: the reserved opcode, which faults (R214). -/
  | rsv
  /-- PAD: write one padded block (42_padder.md R146). -/
  | pad
  /-- LOAD: read the block into the window (43_schedule_expander.md R161). -/
  | load
  /-- ROUND: one compression round (44_compressor.md R177). -/
  | round
  /-- FEED: the feed-forward addition (44_compressor.md R178). -/
  | feed
  deriving DecidableEq, Repr

/-- The two formats of the opcode table: the command word on the port and the code of the phase register. -/
inductive Format where
  | cw10
  | ph3
  deriving DecidableEq, Repr

/-- The width in bits of a format's words (R90, R96). -/
def Format.width : Format → Nat
  | .cw10 => 10
  | .ph3 => 3

/-- An encoding before it is checked: a format and bits, bit 0 the least significant. -/
structure RawWord where
  format : Format
  bits : Nat
  deriving DecidableEq, Repr

end Sys2Proof
end

