-- ==== Sys2Proof/WellFormed.lean ====
section
/-! DEFINITION. What makes a raw encoding well formed: its bits fit its format's width, and a PH3 word is the code of one of
the four busy phases (30_encoding.md R96). Every CW10 word of 10 bits is well formed, because decoding a command word never
fails (R99). An instruction itself carries only typed data (one byte at most), so every one is well formed. -/

namespace Sys2Proof

/-- The bits fit the format's width. -/
def RawWord.fits (w : RawWord) : Bool :=
  w.bits < 2 ^ w.format.width

/-- The bits select a row of the table: any command word does (R92), a phase code only where it names a busy phase (R96). -/
def RawWord.selectsRow (w : RawWord) : Bool :=
  match w.format with
  | .cw10 => true
  | .ph3 => 2 ≤ w.bits && w.bits ≤ 5

/-- A well-formed encoding. -/
def RawWord.wf (w : RawWord) : Bool :=
  w.fits && w.selectsRow

end Sys2Proof
end

