-- ==== Sys2Proof/Decode.lean ====
section
/-! DEFINITION. The decoder of both formats of the opcode table, and after it the encoder (30_encoding.md R90 to R97). -/

namespace Sys2Proof

/-! ## Decoding -/

/-- The opcode field `op = in_cmd[9:8]` (R91). -/
def opField (w : CmdWord) : BitVec 2 :=
  w.extractLsb' 8 2

/-- The data field `data = in_cmd[7:0]` (R91). -/
def dataField (w : CmdWord) : Byte :=
  w.extractLsb' 0 8

/-- Decoding a command word: total, and the same in every state (R92, R99). -/
def decodeCommand (w : CmdWord) : Instr :=
  if opField w = 0b00#2 then .init
  else if opField w = 0b01#2 then .data (dataField w)
  else if opField w = 0b10#2 then .final
  else .rsv

/-- The micro-operation that the phase register's code selects, if that phase is a busy one (R96). -/
def decodePhase (code : BitVec 3) : Option Instr :=
  if code = 2#3 then some .pad
  else if code = 3#3 then some .load
  else if code = 4#3 then some .round
  else if code = 5#3 then some .feed
  else none

/-- Why a raw encoding names no row of the table. -/
inductive DecodeError where
  /-- More than the 10 bits of `in_cmd`. -/
  | commandTooWide
  /-- More than the 3 bits of the phase register. -/
  | phaseTooWide
  /-- The code of a ready phase, which selects no micro-operation. -/
  | phaseNotBusy
  deriving DecidableEq, Repr

/-- Decoding a raw encoding: every one is either a row or refused by name. -/
def decode (w : RawWord) : Except DecodeError Instr :=
  match w.format with
  | .cw10 =>
    if w.bits < 2 ^ 10 then .ok (decodeCommand (BitVec.ofNat 10 w.bits)) else .error .commandTooWide
  | .ph3 =>
    if w.bits < 2 ^ 3 then
      match decodePhase (BitVec.ofNat 3 w.bits) with
      | some i => .ok i
      | none => .error .phaseNotBusy
    else .error .phaseTooWide

/-- The format of a table row that is `nbits` bits wide, counted in whole bytes or exactly: the 3-bit phase code fills one
byte, the 10-bit command word two. -/
def formatOfWidth (nbits : Nat) : Option Format :=
  if nbits = 0 then none
  else if nbits ≤ 8 then some .ph3
  else if nbits ≤ 16 then some .cw10
  else none

/-- The instruction that the bits `w` of a row of `nbits` bits name (none where the decoder refuses). The unit stores no
words, so the bits are the port's or the phase register's as they stand. -/
def decodeTableWord (nbits w : Nat) : Option Instr :=
  match formatOfWidth nbits with
  | none => none
  | some f =>
    match decode ⟨f, w⟩ with
    | .ok i => some i
    | .error _ => none

/-! ## The opcode map -/

/-- One row of the table of R92: a word `w` selects it iff `w and mask = value`. -/
structure CommandRow where
  mnemonic : String
  value : CmdWord
  mask : CmdWord
  deriving DecidableEq, Repr

/-- A word selects a row iff its masked bits are the row's (R92). -/
def CommandRow.selects (r : CommandRow) (w : CmdWord) : Bool :=
  w &&& r.mask == r.value

/-- The four rows of R92. -/
def commandRows : List CommandRow :=
  [⟨"INIT", 0x000, 0x300⟩, ⟨"DATA", 0x100, 0x300⟩, ⟨"FINAL", 0x200, 0x300⟩, ⟨"RSV", 0x300, 0x300⟩]

/-- The spec's name of an instruction, as the opcode table spells it. -/
def Instr.mnemonic : Instr → String
  | .init => "INIT"
  | .data _ => "DATA"
  | .final => "FINAL"
  | .rsv => "RSV"
  | .pad => "PAD"
  | .load => "LOAD"
  | .round => "ROUND"
  | .feed => "FEED"

/-! ## Encoding -/

/-- A command word from its two fields. -/
def commandWord (op : BitVec 2) (data : Byte) : CmdWord :=
  op ++ data

/-- The canonical encoding of an instruction: ignored data bits are zero (R93, R97); a micro-operation is the code of its
phase (R96). -/
def encode : Instr → RawWord
  | .init => ⟨.cw10, (commandWord 0b00#2 0#8).toNat⟩
  | .data b => ⟨.cw10, (commandWord 0b01#2 b).toNat⟩
  | .final => ⟨.cw10, (commandWord 0b10#2 0#8).toNat⟩
  | .rsv => ⟨.cw10, (commandWord 0b11#2 0#8).toNat⟩
  | .pad => ⟨.ph3, 2⟩
  | .load => ⟨.ph3, 3⟩
  | .round => ⟨.ph3, 4⟩
  | .feed => ⟨.ph3, 5⟩

/-- An instruction is well formed iff its encoding is. -/
def Instr.wf (i : Instr) : Bool :=
  (encode i).wf

/-- Whether an instruction is a host command: the micro-operations are not decodable from `in_cmd` (R96). -/
def Instr.isCommand (i : Instr) : Bool :=
  (encode i).format == .cw10

end Sys2Proof
end

