-- ==== Sys2Proof/Machine/State.lean ====
section
/-! DEFINITION. The state of one unit: the nine items of 10_state.md R20, and two fields that are the model's own (`inputs`,
`draws`). The ROMs, the outputs and the message are not state (R20, R34). -/

namespace Sys2Proof.Machine

/-- The sequencer phase, register `PH` (R27). Its 3-bit codes are in Machine/Codes.lean. -/
inductive Phase where
  /-- After reset: no message open, no digest. -/
  | idle
  /-- Message open: DATA, FINAL and INIT are accepted. -/
  | recv
  /-- The padding unit writes one padded block into `BUF`. -/
  | pad
  /-- `BUF` is read into `WIN`. -/
  | load
  /-- One compression round per step. -/
  | round
  /-- Feed-forward. -/
  | feed
  /-- Digest valid. -/
  | done
  /-- A hardware fault was raised; left only by reset. -/
  | fault
  deriving DecidableEq, Repr

/-- The padding stage, register `ps` (R29). -/
inductive Stage where
  /-- 0: FINAL not yet transferred for this message. -/
  | open
  /-- 1: FINAL transferred, marker byte not yet written. -/
  | markerDue
  /-- 2: marker written, length trailer owed in a second padding block. -/
  | trailerDue
  /-- 3: trailer written; the block in progress is the last. -/
  | last
  deriving DecidableEq, Repr

/-- The hardware's fault code, register `FC` (R30, 60_exceptions.md R241). -/
inductive FaultCode where
  /-- 0: no fault. -/
  | clear
  /-- 1: ReservedOp. -/
  | reservedOp
  /-- 2: NoOpenMessage. -/
  | noOpenMessage
  /-- 3: LenOverflow. -/
  | lenOverflow
  deriving DecidableEq, Repr

/-- The values of the input ports at one clock edge (R32). -/
structure Pins where
  rst : Bool
  inValid : Bool
  inCmd : CmdWord
  deriving DecidableEq, Repr

/-- The whole state. -/
structure State where
  /-- The chaining value (R21). -/
  H : Words8
  /-- The working words `a..h` (R22). -/
  V : Words8
  /-- The sliding window of the message schedule (R23). -/
  WIN : Vector Word 16
  /-- The block being assembled (R24). -/
  BUF : Block
  /-- Message bytes transferred since INIT (R26). -/
  CNT : BitVec 61
  /-- The sequencer phase (R27). -/
  PH : Phase
  /-- The round index (R28). -/
  t : BitVec 6
  /-- The padding stage (R29). -/
  ps : Stage
  /-- The fault code (R30). -/
  FC : FaultCode
  /-- The model's own: the port values at the coming clock edges, oldest first; past its end the host offers nothing
  (DESIGN CHOICE, log entry 2). -/
  inputs : List Pins
  /-- The model's own: how many edges with `rst = 1` there have been, the argument of the free values (DESIGN CHOICE, log
  entry 4). -/
  draws : Nat
  deriving DecidableEq, Repr

/-- Why the MODEL stops. None of these is one of the hardware's faults, which are next states (60_exceptions.md R246): they
are the combinations 93_implementation_defined.md U8 calls unreachable and gives the treatment `fault`. -/
inductive Fault where
  /-- Raised by PAD with `ps` 0 or 3. Safe: no reachable state has it (10_state.md R38 d). -/
  | padStage
  /-- Raised by FEED with `ps` 1. Safe: no reachable state has it (R38 e, 44_compressor.md R178). -/
  | feedStage
  /-- Raised by INIT, DATA, FINAL, RSV and by an edge without a command, in RECV with `ps` not 0. Safe: no reachable state has
  it (R38 c). -/
  | recvStage
  /-- Raised by PAD, LOAD, ROUND, FEED asked for outside the phase of their name. Safe: a step never asks for one
  (46_host_commands.md R217). -/
  | microOpOutsidePhase
  deriving DecidableEq, Repr

/-- Why the model has no meaning for an instruction. -/
inductive Refusal where
  /-- Raised by exec for a row that has no meaning yet. Safe. No arm answers with it. -/
  | notModelled (mnemonic : String)
  deriving DecidableEq, Repr

/-- The state after a reset edge at power-up. `PH`, `t`, `ps`, `FC`, `CNT` are as R37 says. `H`, `V`, `WIN`, `BUF` have no
reset value in the spec: 0 is a DESIGN CHOICE (log entry 3, unsafe). No inputs are pending and no value has been drawn. -/
def State.reset : State where
  H := Vector.replicate 8 0
  V := Vector.replicate 8 0
  WIN := Vector.replicate 16 0
  BUF := Vector.replicate 64 0
  CNT := 0#61
  PH := .idle
  t := 0#6
  ps := .open
  FC := .clear
  inputs := []
  draws := 0

end Sys2Proof.Machine
end

