-- ==== Sys2Proof/Machine/Codes.lean ====
section
/-! DEFINITION. The numeric codes of the phase, the padding stage and the fault code (10_state.md R27, R29, R30). The phase and
stage codes are internal and not observable; the fault code is shown on `fault_code[1:0]`. -/

namespace Sys2Proof.Machine

/-- The 3-bit code of a phase (R27). -/
def Phase.code : Phase → BitVec 3
  | .idle => 0
  | .recv => 1
  | .pad => 2
  | .load => 3
  | .round => 4
  | .feed => 5
  | .done => 6
  | .fault => 7

/-- The phase a 3-bit code names; all eight codes are used (R27). -/
def phaseOfCode (c : BitVec 3) : Phase :=
  if c = 0 then .idle
  else if c = 1 then .recv
  else if c = 2 then .pad
  else if c = 3 then .load
  else if c = 4 then .round
  else if c = 5 then .feed
  else if c = 6 then .done
  else .fault

/-- The 2-bit code of a padding stage (R29). -/
def Stage.code : Stage → BitVec 2
  | .open => 0
  | .markerDue => 1
  | .trailerDue => 2
  | .last => 3

/-- The 2-bit fault code (R30, 60_exceptions.md R241). -/
def FaultCode.code : FaultCode → BitVec 2
  | .clear => 0
  | .reservedOp => 1
  | .noOpenMessage => 2
  | .lenOverflow => 3

/-- The kind of a phase: IDLE, RECV, DONE and FAULT are ready, the other four busy (R27). -/
def Phase.ready : Phase → Bool
  | .idle | .recv | .done | .fault => true
  | .pad | .load | .round | .feed => false

end Sys2Proof.Machine
end

