-- ==== Sys2Proof/Machine/Operands.lean ====
section
/-! DEFINITION. Word arithmetic, the six logic functions, byte packing (40_word_arithmetic.md), and the two access primitives
on a block (20_memory.md R63). All pure. -/

namespace Sys2Proof.Machine

/-! ## Word arithmetic -/

/-- Addition modulo 2^32; the carry out of bit 31 is recorded nowhere (R111). -/
def add32 (x y : Word) : Word :=
  x + y

/-- Right rotation within 32 bits (R113). -/
def rotr (x : Word) (n : Nat) : Word :=
  x.rotateRight n

/-- Logical right shift (R114). -/
def shr (x : Word) (n : Nat) : Word :=
  x >>> n

/-- Small sigma 0, used on `w[j-15]` (R116). -/
def smallSigma0 (x : Word) : Word :=
  rotr x 7 ^^^ rotr x 18 ^^^ shr x 3

/-- Small sigma 1, used on `w[j-2]` (R117). -/
def smallSigma1 (x : Word) : Word :=
  rotr x 17 ^^^ rotr x 19 ^^^ shr x 10

/-- Capital sigma 0, used on working word `a` (R118). -/
def bigSigma0 (a : Word) : Word :=
  rotr a 2 ^^^ rotr a 13 ^^^ rotr a 22

/-- Capital sigma 1, used on working word `e` (R119). -/
def bigSigma1 (e : Word) : Word :=
  rotr e 6 ^^^ rotr e 11 ^^^ rotr e 25

/-- Choose (R120). -/
def choose (e f g : Word) : Word :=
  (e &&& f) ^^^ (~~~e &&& g)

/-- Majority (R121). -/
def majority (a b c : Word) : Word :=
  (a &&& b) ^^^ (a &&& c) ^^^ (b &&& c)

/-! ## Bytes and words, big-endian (20_memory.md R62) -/

/-- Byte `k` of an `8 * n`-bit value, counted from the most significant end. -/
def byteOf {m : Nat} (n : Nat) (v : BitVec m) (k : Nat) : Byte :=
  v.extractLsb' (8 * (n - 1 - k)) 8

/-- A word from four bytes (R122). -/
def be32 (b0 b1 b2 b3 : Byte) : Word :=
  b0 ++ b1 ++ b2 ++ b3

/-- The four bytes of a word (R122). -/
def bytes32 (x : Word) : Vector Byte 4 :=
  #v[x.extractLsb' 24 8, x.extractLsb' 16 8, x.extractLsb' 8 8, x.extractLsb' 0 8]

/-- The eight bytes of a 64-bit value (R123). -/
def bytes64 (l : BitVec 64) : Vector Byte 8 :=
  Vector.ofFn fun k => byteOf 8 l k.val

/-- `CNT mod 64 = CNT[5:0]` (R124). -/
def low6 (cnt : BitVec 61) : BitVec 6 :=
  cnt.extractLsb' 0 6

/-- The bit length `L = 8 * CNT`, formed as `CNT` followed by three zero bits (R124). -/
def bitLength (cnt : BitVec 61) : BitVec 64 :=
  cnt ++ 0#3

/-- The largest byte count, `2^61 - 1` (10_state.md R26, 60_exceptions.md R244). -/
def maxCount : BitVec 61 :=
  BitVec.allOnes 61

/-! ## The access primitives on a block. An access past byte 63 cannot be formed (R63), so each takes the proof that it stays
within the block. -/

/-- `MemRead(addr, n)`: the `8n`-bit value `BUF[addr] ‖ ... ‖ BUF[addr+n-1]` (R63). -/
def memRead (b : Block) (addr : Nat) : (n : Nat) → addr + n ≤ 64 → BitVec (8 * n)
  | 0, _ => 0#0
  | n + 1, h => memRead b addr n (by omega) ++ b[addr + n]

/-- `MemWrite(addr, n, v)`: byte `addr + k` becomes byte `k` of `v`, most significant first (R63). -/
def memWrite (b : Block) (addr n : Nat) (v : BitVec (8 * n)) (_ : addr + n ≤ 64) : Block :=
  Vector.ofFn fun i => if addr ≤ i.val ∧ i.val < addr + n then byteOf n v (i.val - addr) else b[i]

/-- `MemWrite(i, 1, 0x00)` for each `i` from `lo` to `hi - 1`, as 42_padder.md R146 uses it. -/
def fillZero (b : Block) (lo hi : Nat) : Block :=
  Vector.ofFn fun i => if lo ≤ i.val ∧ i.val < hi then 0 else b[i]

end Sys2Proof.Machine
end

