-- ==== Sys2Proof/Machine/Ops.lean ====
section
/-! DEFINITION. The shared operations of a step: the ports at this edge, fetching the instruction of an edge, taking a hardware
fault, the return from one (reset), the guards every command and every micro-operation goes through, and placing an
instruction where the next step fetches it. -/

namespace Sys2Proof.Machine

/-- The three outcomes of this machine. -/
abbrev Result := Host.Outcome State Fault Refusal

/-! ## The ports -/

/-- A host that offers nothing: `rst = 0`, `in_valid = 0`. -/
def quietPins : Pins where
  rst := false
  inValid := false
  inCmd := 0

/-- The input ports at the coming edge (10_state.md R32); past the listed inputs the host offers nothing (log entry 2). -/
def State.pins (s : State) : Pins :=
  s.inputs.headD quietPins

/-- The inputs of the coming edge are used up; nothing else changes. -/
def State.nextEdge (s : State) : State :=
  { s with inputs := s.inputs.tail }

/-- The instruction of an edge with `rst = 0` (46_host_commands.md R216): the micro-operation of a busy phase; in a ready phase
the command that is offered, if one is. A command offered in a busy phase is not decoded (30_encoding.md R99). -/
def fetch (s : State) : Option Instr :=
  match decodePhase s.PH.code with
  | some i => some i
  | none => if s.pins.inValid then some (decodeCommand s.pins.inCmd) else none

/-! ## Taking a hardware fault, and the return from one -/

/-- `raise Fault(code)` (60_exceptions.md R246): `FC` and `PH` are written, every other write of the step is abandoned, and
nothing is saved anywhere else. -/
def raise (code : FaultCode) (s : State) : State :=
  { s with PH := .fault, FC := code }

/-- RESET (70_reset_and_hazards.md R270), the only way out of a fault (60_exceptions.md R247). `H`, `V`, `WIN` and `BUF` are
unspecified afterwards (10_state.md R37): each element is a free value (log entry 4). -/
def resetEdge (s : State) : State :=
  { s with
    H := Vector.ofFn fun i => Config.wordAfterReset s.draws .H i.val s.H[i]
    V := Vector.ofFn fun i => Config.wordAfterReset s.draws .V i.val s.V[i]
    WIN := Vector.ofFn fun i => Config.wordAfterReset s.draws .WIN i.val s.WIN[i]
    BUF := Vector.ofFn fun i => Config.byteAfterReset s.draws i.val s.BUF[i]
    CNT := 0#61
    PH := .idle
    t := 0#6
    ps := .open
    FC := .clear
    draws := s.draws + 1 }

/-! ## Guards -/

/-- RECV is only ever entered with `ps = 0` (10_state.md R38 c); the combination with another stage is a fault of the model
(93_implementation_defined.md U8). -/
def recvBroken (s : State) : Bool :=
  s.PH == .recv && s.ps != .open

/-- What an offered command does: in a busy phase it is not transferred and has no effect whatever (46_host_commands.md R210);
in FAULT it is discarded (R218, 60_exceptions.md R245 test 1); in IDLE, RECV and DONE it has the effect given. -/
def onTransfer (s : State) (effect : Result) : Result :=
  match s.PH with
  | .pad | .load | .round | .feed => .next s
  | .fault => .next s
  | .idle | .done => effect
  | .recv => if recvBroken s then .fault .recvStage else effect

/-- A command that needs an open message: in RECV it has the effect given; in IDLE and DONE it raises NoOpenMessage
(60_exceptions.md R243, R245 test 4). -/
def needsMessage (s : State) (effect : Result) : Result :=
  onTransfer s (if s.PH = .recv then effect else .next (raise .noOpenMessage s))

/-- A micro-operation is performed only in the phase of its name (30_encoding.md R96). -/
def inPhase (p : Phase) (s : State) (effect : Result) : Result :=
  if s.PH = p then effect else .fault .microOpOutsidePhase

/-- An edge in a ready phase without a transfer changes no state (46_host_commands.md R215). -/
def idleEdge (s : State) : Result :=
  if recvBroken s then .fault .recvStage else .next s

/-! ## Placing an instruction where the next step fetches it (log entry 10) -/

/-- The host offers the command word `w` at the coming edge. A busy phase would not transfer it, so RECV with an open message
takes its place. -/
def placeCommand (w : CmdWord) (s : State) : State :=
  { s with
    inputs := ⟨false, true, w⟩ :: s.inputs.tail
    PH := if s.PH.ready then s.PH else .recv
    ps := if s.PH.ready then s.ps else .open }

/-- The stage in which micro-operation phase `p` runs: PAD needs the marker or the trailer due, FEED cannot run with the marker
due (10_state.md R38 d, e). -/
def stageFor (p : Phase) (ps : Stage) : Stage :=
  match p, ps with
  | .pad, .open => .markerDue
  | .pad, .last => .markerDue
  | .feed, .markerDue => .open
  | _, _ => ps

/-- The sequencer stands in phase `p` at the coming edge, and `rst` is low there. -/
def placePhase (p : Phase) (s : State) : State :=
  { s with
    inputs := quietPins :: s.inputs.tail
    PH := p
    ps := stageFor p s.ps }

/-- The bits `w` of a table row of `nbits` bits placed as the next instruction; a word that the decoder refuses changes
nothing. -/
def placeWord (nbits w : Nat) (s : State) : State :=
  match formatOfWidth nbits, decodeTableWord nbits w with
  | some .cw10, some _ => placeCommand (BitVec.ofNat 10 w) s
  | some .ph3, some _ => placePhase (phaseOfCode (BitVec.ofNat 3 w)) s
  | _, _ => s

end Sys2Proof.Machine
end

