-- ==== Sys2Proof/Machine/Commands.lean ====
section
/-! DEFINITION. The host commands INIT, DATA, FINAL and RSV (46_host_commands.md R211 to R214). -/

namespace Sys2Proof.Machine

/-- INIT's writes: a new, empty message (R211). `BUF`, `V`, `WIN` and `t` are not touched. -/
def openMessage (s : State) : State :=
  { s with H := IV, CNT := 0#61, ps := .open, PH := .recv }

/-- The byte `b` at index `CNT mod 64` of the block (R212). -/
def putByte (b : Byte) (cnt : BitVec 61) (buf : Block) : Block :=
  memWrite buf (low6 cnt).toNat 1 b (low6 cnt).isLt

/-- DATA's writes: the byte that fills the block starts its compression (R212). -/
def appendByte (b : Byte) (s : State) : State :=
  { s with
    BUF := putByte b s.CNT s.BUF
    CNT := s.CNT + 1#61
    PH := if low6 s.CNT = 63#6 then .load else s.PH }

/-- FINAL's writes: the tail begins (R213). -/
def closeMessage (s : State) : State :=
  { s with ps := .markerDue, PH := .pad }

/-- INIT (R211). -/
def execInit (s : State) : Result :=
  onTransfer s (.next (openMessage s))

/-- DATA (R212); LenOverflow is checked before every write (60_exceptions.md R244). -/
def execData (b : Byte) (s : State) : Result :=
  needsMessage s (.next (if s.CNT = maxCount then raise .lenOverflow s else appendByte b s))

/-- FINAL (R213). -/
def execFinal (s : State) : Result :=
  needsMessage s (.next (closeMessage s))

/-- RSV: the reserved opcode, in any of IDLE, RECV and DONE (R214, 60_exceptions.md R242). -/
def execRsv (s : State) : Result :=
  onTransfer s (.next (raise .reservedOp s))

end Sys2Proof.Machine
end

