-- ==== Sys2Proof/Machine/Schedule.lean ====
section
/-! DEFINITION. The message schedule expander at step level: LOAD (43_schedule_expander.md R161) and the window shift that is
part of every ROUND (R162). -/

namespace Sys2Proof.Machine

/-- The recurrence of Step 2 on the words at `j-16`, `j-15`, `j-7` and `j-2` (R160). -/
def scheduleWord (w16 w15 w7 w2 : Word) : Word :=
  add32 (add32 (add32 w16 (smallSigma0 w15)) w7) (smallSigma1 w2)

/-- WSHIFT: the window moves down by one word and takes the new word at its top (R162). -/
def wshift (win : Vector Word 16) : Vector Word 16 :=
  Vector.ofFn fun i =>
    if h : i.val < 15 then win[i.val + 1] else scheduleWord win[0] win[1] win[9] win[14]

/-- The window LOAD makes of a block: 16 big-endian words (R161). -/
def loadWindow (buf : Block) : Vector Word 16 :=
  Vector.ofFn fun i => memRead buf (4 * i.val) 4 (by omega)

/-- LOAD's writes (R161). `BUF` is not modified. -/
def loadBlock (s : State) : State :=
  { s with WIN := loadWindow s.BUF, V := s.H, t := 0#6, PH := .round }

/-- LOAD (R161). -/
def execLoad (s : State) : Result :=
  inPhase .load s (.next (loadBlock s))

end Sys2Proof.Machine
end

