-- ==== Sys2Proof/Machine/Compressor.lean ====
section
/-! DEFINITION. The compression-round datapath: the round function (44_compressor.md R175) and the micro-operations ROUND
(R177) and FEED (R178). -/

namespace Sys2Proof.Machine

/-- `temp1` of a round: five operands, modulo 2^32 (R175). -/
def temp1 (k wj e f g h : Word) : Word :=
  add32 (add32 (add32 (add32 h (bigSigma1 e)) (choose e f g)) k) wj

/-- `temp2` of a round (R175). -/
def temp2 (a b c : Word) : Word :=
  add32 (bigSigma0 a) (majority a b c)

/-- `round(j, (a,b,c,d,e,f,g,h), wj)`, as one simultaneous transfer (R175, R181). -/
def round (j : Fin 64) (v : Words8) (wj : Word) : Words8 :=
  let t1 := temp1 K[j] wj v[4] v[5] v[6] v[7]
  let t2 := temp2 v[0] v[1] v[2]
  #v[add32 t1 t2, v[0], v[1], v[2], add32 v[3] t1, v[4], v[5], v[6]]

/-- Eight independent lanes of 32-bit addition (R176, R178). -/
def addLanes (x y : Words8) : Words8 :=
  Vector.ofFn fun i => add32 x[i] y[i]

/-- The round index as an index of `K`, which it covers exactly (41_constant_tables.md R133). -/
def roundIndex (t : BitVec 6) : Fin 64 :=
  ⟨t.toNat, t.isLt⟩

/-- ROUND's writes: one round and the window shift together; at `t = 63` the index stays and FEED follows (R177). -/
def roundStep (s : State) : State :=
  { s with
    V := round (roundIndex s.t) s.V s.WIN[0]
    WIN := wshift s.WIN
    t := if s.t = 63#6 then s.t else s.t + 1#6
    PH := if s.t = 63#6 then .feed else .round }

/-- ROUND (R177). -/
def execRound (s : State) : Result :=
  inPhase .round s (.next (roundStep s))

/-- The phase after FEED, from the padding stage (R178); `ps = 1` cannot occur there. -/
def phaseAfterFeed : Stage → Option Phase
  | .open => some .recv
  | .markerDue => none
  | .trailerDue => some .pad
  | .last => some .done

/-- FEED's writes, where `p` is the phase that follows (R178). -/
def feedForward (p : Phase) (s : State) : State :=
  { s with H := addLanes s.H s.V, PH := p }

/-- FEED (R178). -/
def execFeed (s : State) : Result :=
  inPhase .feed s
    (match phaseAfterFeed s.ps with
     | some p => .next (feedForward p s)
     | none => .fault .feedStage)

end Sys2Proof.Machine
end

