-- ==== Sys2Proof/Machine/Padder.lean ====
section
/-! DEFINITION. The padding unit's micro-operation PAD (42_padder.md R146). -/

namespace Sys2Proof.Machine

/-- The marker at `CNT mod 64` and zeros after it, up to the block's end. -/
def markBlock (cnt : BitVec 61) (buf : Block) : Block :=
  fillZero (memWrite buf (low6 cnt).toNat 1 0x80#8 (low6 cnt).isLt) ((low6 cnt).toNat + 1) 64

/-- The eight-byte big-endian length trailer at 56. -/
def putTrailer (cnt : BitVec 61) (buf : Block) : Block :=
  memWrite buf 56 8 (bitLength cnt) (by decide)

/-- PAD with `ps = 1`: the trailer goes into this block if the marker leaves room for it, that is if `CNT mod 64 <= 55`. -/
def padMarker (s : State) : State :=
  { s with
    BUF := if (low6 s.CNT).toNat ≤ 55 then putTrailer s.CNT (markBlock s.CNT s.BUF) else markBlock s.CNT s.BUF
    ps := if (low6 s.CNT).toNat ≤ 55 then .last else .trailerDue
    PH := .load }

/-- PAD with `ps = 2`: 56 zeros and the trailer. -/
def padTrailer (s : State) : State :=
  { s with BUF := putTrailer s.CNT (fillZero s.BUF 0 56), ps := .last, PH := .load }

/-- PAD (R146). `ps` 0 and 3 are unreachable here (93_implementation_defined.md U8). -/
def execPad (s : State) : Result :=
  inPhase .pad s
    (match s.ps with
     | .markerDue => .next (padMarker s)
     | .trailerDue => .next (padTrailer s)
     | .open => .fault .padStage
     | .last => .fault .padStage)

end Sys2Proof.Machine
end

