-- ==== Sys2Proof/Machine/Dispatch.lean ====
section
/-! DEFINITION. One arm per row of the opcode table. -/

namespace Sys2Proof.Machine

def exec (i : Instr) (s : State) : Host.Outcome State Fault Refusal :=
  match i with
  | .init => Sys2Proof.Machine.execInit s
  | .data b => Sys2Proof.Machine.execData b s
  | .final => Sys2Proof.Machine.execFinal s
  | .rsv => Sys2Proof.Machine.execRsv s
  | .pad => Sys2Proof.Machine.execPad s
  | .load => Sys2Proof.Machine.execLoad s
  | .round => Sys2Proof.Machine.execRound s
  | .feed => Sys2Proof.Machine.execFeed s

end Sys2Proof.Machine
end

