-- ==== Sys2Proof/Machine/Step.lean ====
section
/-! DEFINITION. The step at one clock edge (46_host_commands.md R216): reset first, then the micro-operation of a busy phase or
the command of a ready phase, else nothing. The edge's inputs are used up in every case. -/

namespace Sys2Proof.Machine

/-- One step. -/
def step (s : State) : Host.Outcome State Fault Refusal :=
  if s.pins.rst then .next (resetEdge s.nextEdge)
  else
    match fetch s with
    | some i => exec i s.nextEdge
    | none => idleEdge s.nextEdge

/-- The state `s` with the table word `w` of `nbits` bits as the instruction of the coming edge: a command on the port, or the
sequencer in the phase of a micro-operation (log entry 10). -/
def State.withFetchWord (s : State) (nbits w : Nat) : State :=
  placeWord nbits w s

end Sys2Proof.Machine
end

