-- ==== Sys2Proof/Machine/Stream.lean ====
section
/-! DEFINITION. The notation for command streams (30_encoding.md R97, R98) and a host that plays one: each command is offered
until it is transferred. The lines are the host's, not the unit's: no part of this is read by a step. -/

namespace Sys2Proof.Machine

/-- One line of a command stream (R97), with the pseudo-command WAIT (R98; how far it reaches is log entry 15). -/
inductive StreamLine where
  | init
  | data (b : Byte)
  | final
  | rsv
  /-- `n` steps with `in_valid = 0`. -/
  | idle (n : Nat)
  /-- One edge with `rst = 1`. -/
  | reset
  /-- Idle steps until one at which `in_ready = 1`; R98 does not say whether that step is WAIT's own, and here it is (DESIGN CHOICE, log
  entry 15). -/
  | wait
  deriving DecidableEq, Repr

/-- ABORT is another spelling of INIT (R98). -/
def StreamLine.abort : StreamLine := .init

/-- MSG with its bytes (R98). -/
def messageLines (m : List Byte) : List StreamLine :=
  .init :: m.map .data ++ [.final, .wait]

/-- The ports while a command word is offered. -/
def offering (w : CmdWord) : Pins :=
  ⟨false, true, w⟩

/-- The ports at the next edge and the lines left after it, where `ready` is `in_ready` in that cycle. That WAIT takes
the idle step with `in_ready = 1` too is a DESIGN CHOICE (log entry 15). -/
def playEdge (ready : Bool) : List StreamLine → Pins × List StreamLine
  | [] => (quietPins, [])
  | .init :: rest => (offering (commandWord 0b00#2 0), if ready then rest else .init :: rest)
  | .data b :: rest => (offering (commandWord 0b01#2 b), if ready then rest else .data b :: rest)
  | .final :: rest => (offering (commandWord 0b10#2 0), if ready then rest else .final :: rest)
  | .rsv :: rest => (offering (commandWord 0b11#2 0), if ready then rest else .rsv :: rest)
  | .idle 0 :: rest => playEdge ready rest
  | .idle (n + 1) :: rest => (quietPins, if n = 0 then rest else .idle n :: rest)
  | .reset :: rest => (⟨true, false, 0⟩, rest)
  | .wait :: rest => (quietPins, if ready then rest else .wait :: rest)

/-- The lines from the first one that takes a step: an `IDLE 0` at the head takes none (R97). -/
def skipEmpty : List StreamLine → List StreamLine
  | .idle 0 :: rest => skipEmpty rest
  | lines => lines

/-- The lines played against the unit for at most `k` edges; no step is taken once no line that takes one is left. -/
def playLines : Nat → List StreamLine → State → Result
  | 0, _, s => .next s
  | k + 1, lines, s =>
    match skipEmpty lines with
    | [] => .next s
    | line :: rest =>
      match step { s with inputs := [(playEdge s.PH.ready (line :: rest)).1] } with
      | .next s' => playLines k (playEdge s.PH.ready (line :: rest)).2 s'
      | .fault r => .fault r
      | .refused r => .refused r

end Sys2Proof.Machine
end

