-- ==== Sys2Proof/Machine/Flags.lean ====
section
/-! DEFINITION. The output ports. The unit has no condition codes, carry, overflow, zero or sign flags (10_state.md R31): its
only status is these ports, and every one is a function of the current state alone (R33, R34). -/

namespace Sys2Proof.Machine

/-- `in_ready` (R34). -/
def State.inReady (s : State) : Bool :=
  s.PH.ready

/-- `digest_valid` (R34). -/
def State.digestValid (s : State) : Bool :=
  s.PH == .done

/-- `fault` (R34). -/
def State.faultFlag (s : State) : Bool :=
  s.PH == .fault

/-- `fault_code = FC` (R34). -/
def State.faultCode (s : State) : BitVec 2 :=
  s.FC.code

/-- The 256 bits `H[0] ‖ H[1] ‖ ... ‖ H[7]` (45_digest_and_hash.md R196). -/
def digestBits (h : Words8) : BitVec 256 :=
  h[0] ++ h[1] ++ h[2] ++ h[3] ++ h[4] ++ h[5] ++ h[6] ++ h[7]

/-- `digest`: unspecified, so without a value, while `digest_valid = 0` (R34, 93_implementation_defined.md U5; log entry 7). -/
def State.digest (s : State) : Option (BitVec 256) :=
  if s.digestValid then some (digestBits s.H) else none

/-- What can be observed in one cycle (00_scope.md R17). -/
structure Observation where
  inReady : Bool
  digestValid : Bool
  fault : Bool
  faultCode : BitVec 2
  digest : Option (BitVec 256)
  deriving DecidableEq, Repr

/-- The observation of a cycle; while `rst = 1` is applied the outputs are unspecified, so there is none
(70_reset_and_hazards.md R271, 93_implementation_defined.md U4; log entry 7). -/
def State.observe (s : State) : Option Observation :=
  if s.pins.rst then none
  else some ⟨s.inReady, s.digestValid, s.faultFlag, s.faultCode, s.digest⟩

end Sys2Proof.Machine
end

