-- ==== Sys2Proof/Machine/HashFunction.lean ====
section
/-! DEFINITION. The function level, normative for values (00_scope.md R13): `pad` (42_padder.md R140), `expand`
(43_schedule_expander.md R160), `compress` (44_compressor.md R176), `finalize`, `hash` and `hexDigest`
(45_digest_and_hash.md R195 to R198). The step level is held against these. -/

namespace Sys2Proof.Machine

/-! ## Padding -/

/-- `z`, the least number of zero bytes (R141): `(55 - n) mod 64`, written without subtraction below zero. -/
def zeroCount (n : Nat) : Nat :=
  (119 - n % 64) % 64

/-- `pad(m)` (R140). A message whose bit length does not fit in 64 bits has none: doc00 calls the operation undefined there and
a model refuses to evaluate it (R144, 93_implementation_defined.md U1; log entry 8). -/
def pad (m : List Byte) : Option (List Byte) :=
  if m.length < 2 ^ 61 then
    some (m ++ [0x80#8] ++ List.replicate (zeroCount m.length) 0#8
      ++ (bytes64 (BitVec.ofNat 64 (8 * m.length))).toList)
  else none

/-- The number of blocks of a padded message of `n` bytes (R143). -/
def blockCount (n : Nat) : Nat :=
  (n + 8) / 64 + 1

/-- Block `i` of a padded message (R145). Every index used is within it. -/
def blockOf (p : List Byte) (i : Nat) : Block :=
  Vector.ofFn fun k => p.getD (64 * i + k.val) 0

/-! ## The message schedule -/

/-- Step 1: words 0 to 15 of the schedule (R160). -/
def blockWord (b : Block) (i : Fin 16) : Word :=
  be32 b[4 * i.val] b[4 * i.val + 1] b[4 * i.val + 2] b[4 * i.val + 3]

/-- The schedule words `ws` and the next one after them, by Step 2 (R160). -/
def withNextWord (ws : List Word) : List Word :=
  ws ++ [scheduleWord (ws.getD (ws.length - 16) 0) (ws.getD (ws.length - 15) 0) (ws.getD (ws.length - 7) 0)
    (ws.getD (ws.length - 2) 0)]

/-- The first `16 + n` schedule words of a block; the recurrence goes on past word 63 (R163). -/
def scheduleUpTo (b : Block) : Nat → List Word
  | 0 => (Vector.ofFn (blockWord b)).toList
  | n + 1 => withNextWord (scheduleUpTo b n)

/-- Schedule word `w[j]` of a block, for any `j` (R160, R163). -/
def scheduleAt (b : Block) (j : Nat) : Word :=
  (scheduleUpTo b (j - 15)).getD j 0

/-- `expand(block)`: the 64 words of the schedule (R160). -/
def expand (b : Block) : Vector Word 64 :=
  let ws := scheduleUpTo b 48
  Vector.ofFn fun j => ws.getD j.val 0

/-! ## Compression -/

/-- The working words after the first `n` rounds (R176): `v_0 = S`, `v_(j+1) = round(j, v_j, w[j])`. -/
def afterRounds (st : Words8) (w : Vector Word 64) : (n : Nat) → n ≤ 64 → Words8
  | 0, _ => st
  | j + 1, h => round ⟨j, h⟩ (afterRounds st w j (by omega)) w[j]

/-- `compress(state, schedule)` (R176). -/
def compress (st : Words8) (w : Vector Word 64) : Words8 :=
  addLanes st (afterRounds st w 64 (Nat.le_refl 64))

/-! ## The digest -/

/-- `finalize(state)`: 32 bytes (R195). -/
def finalize (st : Words8) : Vector Byte 32 :=
  Vector.ofFn fun k => (bytes32 st[k.val / 4])[k.val % 4]

/-- The chaining value after the first `n` blocks of a padded message: `S_0 = IV` (R198). -/
def chainAfter (p : List Byte) : Nat → Words8
  | 0 => IV
  | i + 1 => compress (chainAfter p i) (expand (blockOf p i))

/-- `hash(m)` (R198), where `pad` answers. -/
def hash (m : List Byte) : Option (Vector Byte 32) :=
  (pad m).map fun p => finalize (chainAfter p (p.length / 64))

/-- The 256 bits of a digest as the port shows it: byte 0 most significant (R196). -/
def digestOfBytes (d : Vector Byte 32) : BitVec 256 :=
  memValue d 32 (Nat.le_refl 32)
where
  /-- The first `n` bytes as one value, byte 0 most significant. -/
  memValue (d : Vector Byte 32) : (n : Nat) → n ≤ 32 → BitVec (8 * n)
    | 0, _ => 0#0
    | n + 1, h => memValue d n (by omega) ++ d[n]

/-- The lowercase hexadecimal digit of four bits (R197). -/
def hexDigit (x : BitVec 4) : Char :=
  ['0', '1', '2', '3', '4', '5', '6', '7', '8', '9', 'a', 'b', 'c', 'd', 'e', 'f'].getD x.toNat '0'

/-- A digest as 64 hexadecimal characters, two per byte, most significant nibble first (R197). -/
def lowercaseHex (d : Vector Byte 32) : List Char :=
  d.toList.flatMap fun b => [hexDigit (b.extractLsb' 4 4), hexDigit (b.extractLsb' 0 4)]

/-- `hexDigest(m)` (R197). -/
def hexDigest (m : List Byte) : Option (List Char) :=
  (hash m).map lowercaseHex

end Sys2Proof.Machine
end

