-- ==== Sys2Proof/Safety.lean ====
section
/-! DEFINITION. The terms claims use: runs, what is transferred in one, the invariant of reachable states
(10_state.md R38), and the relations of the two isolation claims. -/

namespace Sys2Proof.Machine

/-! ## Runs -/

/-- The outcome of `k` steps. -/
def run : Nat → State → Result
  | 0, s => .next s
  | k + 1, s =>
    match step s with
    | .next t => run k t
    | .fault r => .fault r
    | .refused r => .refused r

/-- `rst` is low at the next `k` edges. -/
def NoReset (k : Nat) (s : State) : Prop :=
  ∀ p ∈ s.inputs.take k, p.rst = false

/-- The command transferred at the coming edge, if one is: `rst = 0`, `in_valid = 1` and `in_ready = 1`
(46_host_commands.md R210). -/
def State.transferred (s : State) : Option Instr :=
  if !s.pins.rst && s.pins.inValid && s.inReady then some (decodeCommand s.pins.inCmd) else none

/-- The command stream of the next `k` steps: what is transferred, in order (00_scope.md R15). -/
def transfers : Nat → State → List Instr
  | 0, _ => []
  | k + 1, s =>
    s.transferred.toList ++
      match step s with
      | .next t => transfers k t
      | .fault _ => []
      | .refused _ => []

/-- The blocks that `BUF` holds at the LOAD steps among the next `k` steps, in order (42_padder.md R147). -/
def loadedBlocks : Nat → State → List Block
  | 0, _ => []
  | k + 1, s =>
    (if s.PH = .load ∧ s.pins.rst = false then [s.BUF] else []) ++
      match step s with
      | .next t => loadedBlocks k t
      | .fault _ => []
      | .refused _ => []

/-- The well-formed bracket of a message (45_digest_and_hash.md R199). -/
def bracket (m : List Byte) : List Instr :=
  .init :: m.map .data ++ [.final]

/-- The busy steps after FINAL (R199 b, 46_host_commands.md R219). -/
def tailSteps (n : Nat) : Nat :=
  if n % 64 ≤ 55 then 67 else 134

/-- The state takes a command that opens a message: a ready phase other than FAULT (R199), with the stage RECV always has
(10_state.md R38 c). -/
def State.Ready (s : State) : Prop :=
  (s.PH = .idle ∨ s.PH = .recv ∨ s.PH = .done) ∧ (s.PH = .recv → s.ps = .open)

/-! ## The invariant of reachable states -/

/-- Which padding stages a phase may have (R38 c, d, e, f); IDLE has the reset value of R37. -/
def stageFits : Phase → Stage → Bool
  | .idle, ps => ps == .open
  | .recv, ps => ps == .open
  | .pad, ps => ps == .markerDue || ps == .trailerDue
  | .load, ps => ps != .markerDue
  | .round, ps => ps != .markerDue
  | .feed, ps => ps != .markerDue
  | .done, ps => ps == .last
  | .fault, _ => true

/-- A block of message bytes alone is in progress: `ps = 0` in LOAD, ROUND or FEED (R38 i). -/
def messageBlockBusy (s : State) : Bool :=
  (s.PH == .load || s.PH == .round || s.PH == .feed) && s.ps == .open

/-- What holds in every state reachable from reset (R38 a, c to f, i); (g) and (j) hold by the widths of `t` and `CNT`. -/
abbrev State.Inv (s : State) : Prop :=
  (s.FC = .clear ↔ s.PH ≠ .fault) ∧
  stageFits s.PH s.ps = true ∧
  (s.PH = .idle → s.CNT = 0#61 ∧ s.t = 0#6) ∧
  (messageBlockBusy s = true → low6 s.CNT = 0#6 ∧ 64 ≤ s.CNT.toNat)

/-! ## Isolation -/

/-- Two states that may differ only in what is unspecified (10_state.md R39): each register agrees in the phases in which a later
step may still read what it holds. -/
structure SameSpecified (s u : State) : Prop where
  inputs : s.inputs = u.inputs
  PH : s.PH = u.PH
  ps : s.ps = u.ps
  CNT : s.CNT = u.CNT
  FC : s.FC = u.FC
  H : s.PH ≠ .idle → s.PH ≠ .fault → s.H = u.H
  V : s.PH = .round ∨ s.PH = .feed → s.V = u.V
  WIN : s.PH = .round → s.WIN = u.WIN
  t : s.PH = .round → s.t = u.t
  message : s.PH = .recv ∨ s.PH = .pad →
    ∀ i : Fin 64, i.val < (low6 s.CNT).toNat → s.BUF[i] = u.BUF[i]
  block : s.PH = .load ∨ s.PH = .round ∨ s.PH = .feed → s.BUF = u.BUF

/-- Two lists of inputs that differ at most in the data bits of the offered commands. -/
def sameButData : Pins → Pins → Prop :=
  fun p q => p.rst = q.rst ∧ p.inValid = q.inValid ∧ opField p.inCmd = opField q.inCmd

/-- Two states that may differ in every register that holds message contents, and in the bytes offered: the sequencer agrees
(10_state.md R36). -/
structure SameControl (s u : State) : Prop where
  inputs : List.Forall₂ sameButData s.inputs u.inputs
  PH : s.PH = u.PH
  ps : s.ps = u.ps
  CNT : s.CNT = u.CNT
  FC : s.FC = u.FC
  t : s.t = u.t

end Sys2Proof.Machine
end

