-- ==== Sys2Proof/Certificates/Slice0/Obligations.lean ====
section
/-! DEFINITION. The statements for the provers, from the spec's numbered rules. -/

open Sys2Proof Sys2Proof.Machine

/-! ## Encoding -/

/-- 30_encoding.md R92: every 10-bit word selects exactly one row of the table, the one it decodes to, and DATA's operand is
the low byte. -/
def Obligations.CommandMapIsComplete : Prop :=
  ∀ w : CmdWord,
    (commandRows.filter fun r => r.selects w).map CommandRow.mnemonic = [(decodeCommand w).mnemonic] ∧
    (opField w = 0b01#2 → decodeCommand w = .data (w.setWidth 8))

/-- 30_encoding.md R93: the data bits of INIT, FINAL and RSV change nothing, and the canonical encodings have them zero. -/
def Obligations.IgnoredDataBitsChangeNothing : Prop :=
  (∀ d : Byte, decodeCommand (commandWord 0b00#2 d) = .init ∧ decodeCommand (commandWord 0b10#2 d) = .final ∧
    decodeCommand (commandWord 0b11#2 d) = .rsv) ∧
  encode .init = ⟨.cw10, 0x000⟩ ∧ encode .final = ⟨.cw10, 0x200⟩

/-- 30_encoding.md R96: no command word is a micro-operation; the micro-operation of a busy phase is the one of its name,
chosen by the 3-bit code; a ready phase has none. -/
def Obligations.MicroOpsAreSelectedByPhaseAlone : Prop :=
  (∀ w : CmdWord, (decodeCommand w).isCommand = true) ∧
  (∀ c : BitVec 3, decodePhase c =
    if c = 2#3 then some .pad else if c = 3#3 then some .load else if c = 4#3 then some .round
    else if c = 5#3 then some .feed else none) ∧
  (∀ i : Instr, i.isCommand = false ↔ i = .pad ∨ i = .load ∨ i = .round ∨ i = .feed) ∧
  Phase.pad.code = 2#3 ∧ Phase.load.code = 3#3 ∧ Phase.round.code = 4#3 ∧ Phase.feed.code = 5#3

/-- Words of 95_test_vectors.md section 2.7 and codes of 10_state.md R27. -/
def Obligations.SampleWordsDecode : Prop :=
  decodeCommand 0b00_0000_0000#10 = .init ∧ decodeCommand 0b00_1111_1111#10 = .init ∧
  decodeCommand 0b01_0110_0001#10 = .data 0x61#8 ∧ decodeCommand 0b01_1000_0000#10 = .data 0x80#8 ∧
  decodeCommand 0b10_1100_0011#10 = .final ∧ decodeCommand 0b11_1010_0101#10 = .rsv ∧
  decodePhase 0b010#3 = some .pad ∧ decodePhase 0b101#3 = some .feed

/-- Decoding an instruction's encoding gives the instruction back, for all instructions and every operand. -/
def Obligations.DecodeOfEncode : Prop :=
  ∀ i : Instr, i.wf = true → decode (encode i) = .ok i

/-- The decoder answers exactly on the well-formed encodings. -/
def Obligations.DecodeAnswersOnWellFormedOnly : Prop :=
  ∀ w : RawWord, w.wf = true ↔ ∃ i : Instr, decode w = .ok i

/-- Encoding what was decoded gives the word back, but for the ignored data bits, which become zero. -/
def Obligations.EncodeOfDecode : Prop :=
  ∀ (w : RawWord) (i : Instr), decode w = .ok i →
    encode i =
      if w.format = .cw10 ∧ w.bits / 256 ≠ 1 then ⟨w.format, w.bits / 256 * 256⟩ else w

/-! ## The step -/

/-- A step runs the decoded instruction on the state whose edge is used up; without one it changes nothing else; `rst` comes
first (46_host_commands.md R216). Using up the edge's inputs is the model's own (log entry 2). -/
def Obligations.StepRunsDecodedInstruction : Prop :=
  ∀ s : State,
    (s.pins.rst = true → step s = .next (resetEdge s.nextEdge)) ∧
    (s.pins.rst = false →
      (∀ i : Instr, decodePhase s.PH.code = some i → step s = exec i s.nextEdge) ∧
      (s.PH.ready = true → s.pins.inValid = true → step s = exec (decodeCommand s.pins.inCmd) s.nextEdge) ∧
      (s.PH.ready = true → s.pins.inValid = false → step s = idleEdge s.nextEdge))

/-- An instruction's encoding placed with `withFetchWord` is the one the very next step runs (log entry 10: the model's own
way of placing one). -/
def Obligations.PlacedInstructionRunsNext : Prop :=
  ∀ (s : State) (i : Instr) (nbits : Nat), nbits = (if i.isCommand then 16 else 8) →
    decodeTableWord nbits (encode i).bits = some i ∧
    step (s.withFetchWord nbits (encode i).bits) = exec i (s.withFetchWord nbits (encode i).bits).nextEdge

/-- 46_host_commands.md R216 and 60_exceptions.md R245: the order of the tests of a step, in every state in which RECV has
`ps = 0` (10_state.md R38 c). -/
def Obligations.StepOrderOfTests : Prop :=
  ∀ s : State, (s.PH = .recv → s.ps = .open) →
    step s =
      if s.pins.rst = true then .next (resetEdge s.nextEdge)
      else if s.PH = .pad then exec .pad s.nextEdge
      else if s.PH = .load then exec .load s.nextEdge
      else if s.PH = .round then exec .round s.nextEdge
      else if s.PH = .feed then exec .feed s.nextEdge
      else if s.pins.inValid = false then .next s.nextEdge
      else if s.PH = .fault then .next s.nextEdge
      else if opField s.pins.inCmd = 0b11#2 then .next { s.nextEdge with PH := .fault, FC := .reservedOp }
      else if opField s.pins.inCmd = 0b00#2 then
        .next { s.nextEdge with H := IV, CNT := 0, ps := .open, PH := .recv }
      else if s.PH = .idle ∨ s.PH = .done then .next { s.nextEdge with PH := .fault, FC := .noOpenMessage }
      else if opField s.pins.inCmd = 0b01#2 then
        if s.CNT = BitVec.allOnes 61 then .next { s.nextEdge with PH := .fault, FC := .lenOverflow }
        else .next (appendByte (dataField s.pins.inCmd) s.nextEdge)
      else .next { s.nextEdge with ps := .markerDue, PH := .pad }

/-! ## Commands: results, and everything they leave unchanged -/

/-- 46_host_commands.md R211; that exec of INIT in a busy phase, where R210 says nothing is transferred, answers the state unchanged is
the model's choice (log entry 1). -/
def Obligations.InitOpensEmptyMessage : Prop :=
  ∀ s : State,
    (s.Ready →
      exec .init s = .next { s with
        H := #v[0x6a09e667, 0xbb67ae85, 0x3c6ef372, 0xa54ff53a, 0x510e527f, 0x9b05688c, 0x1f83d9ab, 0x5be0cd19]
        CNT := 0
        ps := .open
        PH := .recv } ∧
      ∀ t : State, exec .init s = .next t → t.digestValid = false) ∧
    (s.PH = .fault ∨ s.PH.ready = false → exec .init s = .next s)

/-- 46_host_commands.md R212: the byte goes to index `CNT mod 64`, the count rises by one, the 64th byte starts LOAD, and nothing
else changes. -/
def Obligations.DataAppendsOneByte : Prop :=
  ∀ (b : Byte) (s : State), s.PH = .recv → s.ps = .open → s.CNT.toNat < 2 ^ 61 - 1 →
    ∃ t : State, exec (.data b) s = .next t ∧
      (∀ i : Fin 64, t.BUF[i] = if i.val = s.CNT.toNat % 64 then b else s.BUF[i]) ∧
      t.CNT.toNat = s.CNT.toNat + 1 ∧
      t.PH = (if s.CNT.toNat % 64 = 63 then .load else .recv) ∧
      t.H = s.H ∧ t.V = s.V ∧ t.WIN = s.WIN ∧ t.t = s.t ∧ t.ps = s.ps ∧ t.FC = s.FC ∧
      t.inputs = s.inputs ∧ t.draws = s.draws

/-- 60_exceptions.md R244: at `2^61 - 1` bytes DATA faults before any write; FINAL is legal there and the trailer is all ones but
the three low bits. -/
def Obligations.DataAtLengthLimitFaults : Prop :=
  ∀ (b : Byte) (s : State), s.PH = .recv → s.ps = .open → s.CNT.toNat = 2 ^ 61 - 1 →
    exec (.data b) s = .next { s with PH := .fault, FC := .lenOverflow } ∧
    exec .final s = .next { s with ps := .markerDue, PH := .pad } ∧
    bitLength s.CNT = 0xFFFFFFFFFFFFFFF8#64

/-- 60_exceptions.md R243. -/
def Obligations.DataOrFinalWithoutMessageFaults : Prop :=
  ∀ (b : Byte) (s : State), s.PH = .idle ∨ s.PH = .done →
    exec (.data b) s = .next { s with PH := .fault, FC := .noOpenMessage } ∧
    exec .final s = .next { s with PH := .fault, FC := .noOpenMessage } ∧
    ∀ (i : Instr) (t : State), i = .data b ∨ i = .final → exec i s = .next t → t.digestValid = false

/-- 46_host_commands.md R213; in FAULT it is discarded (R218). That exec of FINAL in a busy phase, where R210 says nothing is transferred,
answers the state unchanged is the model's choice (log entry 1). -/
def Obligations.FinalStartsTheTail : Prop :=
  ∀ s : State,
    (s.PH = .recv → s.ps = .open → exec .final s = .next { s with ps := .markerDue, PH := .pad }) ∧
    (s.PH = .fault ∨ s.PH.ready = false → exec .final s = .next s)

/-- 46_host_commands.md R214 and 60_exceptions.md R242. -/
def Obligations.ReservedOpcodeFaults : Prop :=
  ∀ s : State,
    (s.Ready → exec .rsv s = .next { s with PH := .fault, FC := .reservedOp }) ∧
    (s.PH = .fault → exec .rsv s = .next s) ∧
    (∀ w : CmdWord, 0x300#10 ≤ w → decodeCommand w = .rsv)

/-- 46_host_commands.md R210, clauses 1 and 2: when a command is transferred, and that one offered to a busy unit has no effect
whatever on the step. Clause 3, that exec of a command in a busy phase answers the state unchanged, is the model's choice (log
entry 1). -/
def Obligations.BusyUnitIgnoresThePort : Prop :=
  (∀ (s : State) (i : Instr), s.transferred = some i ↔
    s.pins.rst = false ∧ s.pins.inValid = true ∧ (s.PH = .idle ∨ s.PH = .recv ∨ s.PH = .done ∨ s.PH = .fault) ∧
      decodeCommand s.pins.inCmd = i) ∧
  (∀ (s : State) (p q : Pins) (rest : List Pins), s.inReady = false → p.rst = false → q.rst = false →
    step { s with inputs := p :: rest } = step { s with inputs := q :: rest }) ∧
  (∀ (s : State) (w : CmdWord), s.inReady = false → exec (decodeCommand w) s = .next s)

/-- 46_host_commands.md R215: any number of edges without a transfer in a ready phase changes nothing. -/
def Obligations.WaitingChangesNothing : Prop :=
  ∀ (k : Nat) (s : State), s.PH.ready = true → (s.PH = .recv → s.ps = .open) →
    (∀ p ∈ s.inputs.take k, p.rst = false ∧ p.inValid = false) →
    run k s = .next { s with inputs := s.inputs.drop k }

/-! ## Hardware faults -/

/-- 46_host_commands.md R218: in FAULT every command is transferred and discarded, and only `rst = 1` leaves. -/
def Obligations.FaultDiscardsEveryCommand : Prop :=
  ∀ s : State, s.PH = .fault →
    s.inReady = true ∧
    (∀ w : CmdWord, exec (decodeCommand w) s = .next s) ∧
    (s.pins.rst = false → step s = .next s.nextEdge) ∧
    (s.pins.rst = true → ∃ t : State, step s = .next t ∧ t.PH = .idle)

/-- 60_exceptions.md R248: `FC` shows the first fault since reset. -/
def Obligations.FirstFaultCodeStays : Prop :=
  ∀ (k : Nat) (s : State), s.PH = .fault → NoReset k s →
    run k s = .next { s with inputs := s.inputs.drop k }

/-- 60_exceptions.md R246: fault entry writes `FC` and `PH` only; the outputs of the next cycle. -/
def Obligations.FaultEntryWritesCodeAndPhaseOnly : Prop :=
  ∀ s t : State, step s = .next t → s.PH ≠ .fault → t.PH = .fault →
    t = { s.nextEdge with PH := .fault, FC := t.FC } ∧ t.FC ≠ .clear ∧
    t.faultFlag = true ∧ t.faultCode = t.FC.code ∧ t.digestValid = false ∧ t.inReady = true

/-- 60_exceptions.md R240, R241: the three causes and no other. -/
def Obligations.FaultCausesAreThree : Prop :=
  (FaultCode.clear.code = 0 ∧ FaultCode.reservedOp.code = 1 ∧ FaultCode.noOpenMessage.code = 2 ∧
    FaultCode.lenOverflow.code = 3) ∧
  (∀ s : State, s.Inv → (s.faultCode = 0 ↔ s.PH ≠ .fault)) ∧
  ∀ s t : State, step s = .next t → s.PH ≠ .fault → t.PH = .fault →
    ∃ i : Instr, s.transferred = some i ∧
      ((t.FC = .reservedOp ∧ i = .rsv ∧ (s.PH = .idle ∨ s.PH = .recv ∨ s.PH = .done)) ∨
       (t.FC = .noOpenMessage ∧ (i = .final ∨ ∃ b : Byte, i = .data b) ∧ (s.PH = .idle ∨ s.PH = .done)) ∨
       (t.FC = .lenOverflow ∧ (∃ b : Byte, i = .data b) ∧ s.PH = .recv ∧ s.CNT.toNat = 2 ^ 61 - 1))

/-- 93_implementation_defined.md U8 (log entry 6: the model's stops): the combinations that no reachable state has. -/
def Obligations.UnreachableCombinationsStop : Prop :=
  ∀ s : State,
    (s.PH = .pad → s.ps = .open ∨ s.ps = .last → exec .pad s = .fault .padStage) ∧
    (s.PH = .feed → s.ps = .markerDue → exec .feed s = .fault .feedStage) ∧
    (s.PH = .recv → s.ps ≠ .open → (∀ w : CmdWord, exec (decodeCommand w) s = .fault .recvStage) ∧
      (s.pins.rst = false → step s = .fault .recvStage)) ∧
    (s.PH ≠ .pad → exec .pad s = .fault .microOpOutsidePhase) ∧
    (s.PH ≠ .load → exec .load s = .fault .microOpOutsidePhase) ∧
    (s.PH ≠ .round → exec .round s = .fault .microOpOutsidePhase) ∧
    (s.PH ≠ .feed → exec .feed s = .fault .microOpOutsidePhase)

/-! ## Micro-operations -/

/-- 42_padder.md R146: every byte of the block PAD leaves, its stage and phase, and what it does not touch. -/
def Obligations.PadWritesOneBlock : Prop :=
  ∀ s : State, s.PH = .pad → s.ps = .markerDue ∨ s.ps = .trailerDue →
    ∃ t : State, exec .pad s = .next t ∧
      (s.ps = .markerDue → ∀ i : Fin 64,
        t.BUF[i] =
          if i.val < s.CNT.toNat % 64 then s.BUF[i]
          else if i.val = s.CNT.toNat % 64 then 0x80#8
          else if s.CNT.toNat % 64 ≤ 55 ∧ 56 ≤ i.val then BitVec.ofNat 8 (8 * s.CNT.toNat / 2 ^ (8 * (63 - i.val)))
          else 0#8) ∧
      (s.ps = .trailerDue → ∀ i : Fin 64,
        t.BUF[i] =
          if 56 ≤ i.val then BitVec.ofNat 8 (8 * s.CNT.toNat / 2 ^ (8 * (63 - i.val))) else 0#8) ∧
      t.ps = (if s.ps = .markerDue ∧ 56 ≤ s.CNT.toNat % 64 then .trailerDue else .last) ∧
      t.PH = .load ∧ t.H = s.H ∧ t.V = s.V ∧ t.WIN = s.WIN ∧ t.CNT = s.CNT ∧ t.t = s.t ∧ t.FC = s.FC ∧
      t.inputs = s.inputs ∧ t.draws = s.draws

/-- 43_schedule_expander.md R161. -/
def Obligations.LoadReadsTheBlock : Prop :=
  ∀ s : State, s.PH = .load →
    ∃ t : State, exec .load s = .next t ∧
      (∀ i : Fin 16, t.WIN[i] =
        be32 s.BUF[4 * i.val] s.BUF[4 * i.val + 1] s.BUF[4 * i.val + 2] s.BUF[4 * i.val + 3]) ∧
      t.V = s.H ∧ t.t = 0 ∧ t.PH = .round ∧
      t.H = s.H ∧ t.BUF = s.BUF ∧ t.CNT = s.CNT ∧ t.ps = s.ps ∧ t.FC = s.FC ∧ t.inputs = s.inputs ∧ t.draws = s.draws

/-- 44_compressor.md R177, with R175 and 43_schedule_expander.md R162 written out on the values before the step. -/
def Obligations.RoundTransformsWordsAndWindow : Prop :=
  ∀ s : State, s.PH = .round →
    ∃ (t : State) (t1 t2 : Word), exec .round s = .next t ∧
      t1 = s.V[7] + (rotr s.V[4] 6 ^^^ rotr s.V[4] 11 ^^^ rotr s.V[4] 25) +
        ((s.V[4] &&& s.V[5]) ^^^ (~~~s.V[4] &&& s.V[6])) + K[s.t.toNat]'s.t.isLt + s.WIN[0] ∧
      t2 = (rotr s.V[0] 2 ^^^ rotr s.V[0] 13 ^^^ rotr s.V[0] 22) +
        ((s.V[0] &&& s.V[1]) ^^^ (s.V[0] &&& s.V[2]) ^^^ (s.V[1] &&& s.V[2])) ∧
      t.V = #v[t1 + t2, s.V[0], s.V[1], s.V[2], s.V[3] + t1, s.V[4], s.V[5], s.V[6]] ∧
      (∀ i : Fin 15, t.WIN[i.val] = s.WIN[i.val + 1]) ∧
      t.WIN[15] = s.WIN[0] + (rotr s.WIN[1] 7 ^^^ rotr s.WIN[1] 18 ^^^ s.WIN[1] >>> 3) + s.WIN[9] +
        (rotr s.WIN[14] 17 ^^^ rotr s.WIN[14] 19 ^^^ s.WIN[14] >>> 10) ∧
      (s.t.toNat = 63 → t.t = s.t ∧ t.PH = .feed) ∧
      (s.t.toNat < 63 → t.t.toNat = s.t.toNat + 1 ∧ t.PH = .round) ∧
      t.H = s.H ∧ t.BUF = s.BUF ∧ t.CNT = s.CNT ∧ t.ps = s.ps ∧ t.FC = s.FC ∧ t.inputs = s.inputs ∧ t.draws = s.draws

/-- 44_compressor.md R178: eight independent lanes modulo 2^32, the next phase from `ps`. That `ps = 1`, which R178 calls
unreachable, answers the model's fault `feedStage` is the model's choice (log entry 6). -/
def Obligations.FeedAddsLanesAndChoosesPhase : Prop :=
  ∀ s : State, s.PH = .feed →
    (s.ps ≠ .markerDue → ∃ t : State, exec .feed s = .next t ∧
      (∀ i : Fin 8, t.H[i].toNat = (s.H[i].toNat + s.V[i].toNat) % 2 ^ 32) ∧
      (s.ps = .open → t.PH = .recv) ∧ (s.ps = .trailerDue → t.PH = .pad) ∧ (s.ps = .last → t.PH = .done) ∧
      t.V = s.V ∧ t.WIN = s.WIN ∧ t.BUF = s.BUF ∧ t.CNT = s.CNT ∧ t.t = s.t ∧ t.ps = s.ps ∧ t.FC = s.FC ∧
      t.inputs = s.inputs ∧ t.draws = s.draws) ∧
    (s.ps = .markerDue → exec .feed s = .fault .feedStage)

/-! ## Reset and the outputs -/

/-- 70_reset_and_hazards.md R270: an edge with `rst = 1`, from every state; nothing is said of `H`, `V`, `WIN`, `BUF`. -/
def Obligations.ResetWinsOverEverything : Prop :=
  ∀ s : State, s.pins.rst = true →
    s.transferred = none ∧
    ∃ t : State, step s = .next t ∧ t.PH = .idle ∧ t.t = 0 ∧ t.ps = .open ∧ t.FC = .clear ∧ t.CNT = 0 ∧
      t.inputs = s.inputs.tail

/-- 10_state.md R37, 70_reset_and_hazards.md R271: what the spec gives the state after reset, and the outputs in it. -/
def Obligations.StateAfterReset : Prop :=
  State.reset.PH = .idle ∧ State.reset.t = 0 ∧ State.reset.ps = .open ∧ State.reset.FC = .clear ∧ State.reset.CNT = 0 ∧
  State.reset.observe = some ⟨true, false, false, 0, none⟩

/-- 10_state.md R34: the outputs, a function of the state alone; `digest` has no value unless `digest_valid = 1`. That "no value" and
"no observation" are `none` is the model's choice (log entry 7). -/
def Obligations.OutputsFollowThePhase : Prop :=
  ∀ s : State,
    (s.inReady = true ↔ s.PH = .idle ∨ s.PH = .recv ∨ s.PH = .done ∨ s.PH = .fault) ∧
    (s.digestValid = true ↔ s.PH = .done) ∧
    (s.faultFlag = true ↔ s.PH = .fault) ∧
    s.faultCode = s.FC.code ∧
    (s.PH = .done → s.digest = some (s.H[0] ++ s.H[1] ++ s.H[2] ++ s.H[3] ++ s.H[4] ++ s.H[5] ++ s.H[6] ++ s.H[7])) ∧
    (s.PH ≠ .done → s.digest = none) ∧
    (s.pins.rst = true → s.observe = none) ∧
    (s.pins.rst = false → s.observe = some ⟨s.inReady, s.digestValid, s.faultFlag, s.faultCode, s.digest⟩)

/-- 45_digest_and_hash.md R196: the port carries `finalize(H)`, byte 0 in the most significant position. -/
def Obligations.DigestPortCarriesFinalize : Prop :=
  ∀ h : Words8,
    (∀ k : Fin 32, (digestBits h).extractLsb' (248 - 8 * k.val) 8 = (finalize h)[k]) ∧
    (∀ i : Fin 8, (digestBits h).extractLsb' (224 - 32 * i.val) 32 = h[i]) ∧
    digestOfBytes (finalize h) = digestBits h

/-! ## Whole-machine rules -/

/-- The invariant of reachable states holds after reset: 10_state.md R38 (a, c to f, i) and R37's reset values. Its clauses on IDLE and (i) in
ROUND and FEED are the model's inference (log entry 12). -/
def Obligations.ResetMeetsInvariant : Prop :=
  State.reset.Inv

/-- 10_state.md R38 (a, c to f, i): every step keeps the invariant, from every state that meets it. Its clauses that IDLE has `ps`,
`CNT` and `t` at 0, and that (i) holds in ROUND and FEED too, are the model's inference from R37 and R38 (log entry 12). -/
def Obligations.EveryStepKeepsInvariant : Prop :=
  ∀ s t : State, s.Inv → step s = .next t → t.Inv

/-- 46_host_commands.md R216, 00_scope.md R19: in every state that meets the invariant the step answers a next state, whatever
the host does: the model never stops there. -/
def Obligations.StepIsTotalUnderInvariant : Prop :=
  ∀ s : State, s.Inv → ∃ t : State, step s = .next t

/-- 46_host_commands.md R217: the complete transition table of `PH`. -/
def Obligations.PhaseTransitionTable : Prop :=
  ∀ s t : State, step s = .next t →
    if s.pins.rst = true then t.PH = .idle
    else
      match s.PH with
      | .idle | .done =>
        (match s.transferred with
         | none => t.PH = s.PH
         | some .init => t.PH = .recv
         | some .rsv => t.PH = .fault ∧ t.FC = .reservedOp
         | some _ => t.PH = .fault ∧ t.FC = .noOpenMessage)
      | .recv =>
        (match s.transferred with
         | none => t.PH = .recv
         | some .init => t.PH = .recv
         | some (.data _) =>
           if s.CNT.toNat = 2 ^ 61 - 1 then t.PH = .fault ∧ t.FC = .lenOverflow
           else if s.CNT.toNat % 64 = 63 then t.PH = .load
           else t.PH = .recv
         | some .final => t.PH = .pad
         | some _ => t.PH = .fault ∧ t.FC = .reservedOp)
      | .pad => t.PH = .load
      | .load => t.PH = .round
      | .round => if s.t.toNat = 63 then t.PH = .feed else t.PH = .round
      | .feed =>
        (match s.ps with
         | .open => t.PH = .recv
         | .trailerDue => t.PH = .pad
         | .last => t.PH = .done
         | .markerDue => False)
      | .fault => t.PH = .fault

/-- 10_state.md R20, column "written by": outside reset each register changes only by the operations the table names. -/
def Obligations.RegistersHaveOnlyTheirWriters : Prop :=
  ∀ s t : State, step s = .next t → s.pins.rst = false →
    (t.H ≠ s.H → s.transferred = some .init ∨ s.PH = .feed) ∧
    (t.V ≠ s.V → s.PH = .load ∨ s.PH = .round) ∧
    (t.WIN ≠ s.WIN → s.PH = .load ∨ s.PH = .round) ∧
    (t.BUF ≠ s.BUF → (∃ b : Byte, s.transferred = some (.data b)) ∨ s.PH = .pad) ∧
    (t.CNT ≠ s.CNT → s.transferred = some .init ∨ ∃ b : Byte, s.transferred = some (.data b)) ∧
    (t.t ≠ s.t → s.PH = .load ∨ s.PH = .round) ∧
    (t.ps ≠ s.ps → s.transferred = some .init ∨ s.transferred = some .final ∨ s.PH = .pad) ∧
    (t.FC ≠ s.FC → s.PH ≠ .fault ∧ t.PH = .fault) ∧
    t.inputs = s.inputs.tail ∧ t.draws = s.draws

/-- 10_state.md R39, 45_digest_and_hash.md R200: two states that differ only in unspecified contents are observed alike and stay so,
step by step. So no value that State.reset or a reset edge leaves in `H`, `V`, `WIN`, `BUF` reaches a port (log entries 3 and 4: it holds for every such
value). -/
def Obligations.UnspecifiedContentsAreNeverObserved : Prop :=
  ∀ s u : State, SameSpecified s u →
    s.observe = u.observe ∧
    ((∃ t v : State, step s = .next t ∧ step u = .next v ∧ SameSpecified t v) ∨
     (∃ f : Fault, step s = .fault f ∧ step u = .fault f))

/-- 10_state.md R36, 46_host_commands.md R217: no phase, count or fault depends on the contents of a message. -/
def Obligations.SequencerIgnoresMessageContents : Prop :=
  ∀ s u : State, SameControl s u →
    s.inReady = u.inReady ∧
    ((∃ t v : State, step s = .next t ∧ step u = .next v ∧ SameControl t v) ∨
     (∃ f : Fault, step s = .fault f ∧ step u = .fault f))

/-- 00_scope.md R18, 70_reset_and_hazards.md R277: from every state that meets the invariant, a busy unit is ready again within 134
steps of the spec's reference sequencing (log entry 11). -/
def Obligations.BusyEndsWithin134Steps : Prop :=
  ∀ s : State, s.Inv → s.inReady = false → NoReset 134 s →
    ∃ (k : Nat) (u : State), k ≤ 134 ∧ run k s = .next u ∧ u.inReady = true

/-- 46_host_commands.md R212, R219: after the byte that fills the block the unit is busy for 66 steps and returns to RECV by
itself. -/
def Obligations.FullBlockReturnsToRecv : Prop :=
  ∀ s : State, s.PH = .load → s.ps = .open → NoReset 66 s →
    (∀ j : Nat, j < 66 → ∃ u : State, run j s = .next u ∧ u.inReady = false) ∧
    ∃ u : State, run 66 s = .next u ∧ u.PH = .recv ∧ u.ps = .open ∧ u.CNT = s.CNT ∧ u.BUF = s.BUF

/-! ## The function level, and the machine against it -/

/-- 42_padder.md R141: the least number of zero bytes, as the formula gives it. -/
def Obligations.ZeroCountIsLeast : Prop :=
  ∀ n : Nat,
    (n + 1 + zeroCount n) % 64 = 56 ∧ (∀ z : Nat, (n + 1 + z) % 64 = 56 → zeroCount n ≤ z) ∧
    (zeroCount n : Int) = (55 - (n : Int)) % 64 ∧
    (n % 64 = 55 → zeroCount n = 0) ∧ (n % 64 = 56 → zeroCount n = 63) ∧ (n % 64 = 0 → zeroCount n = 55)

/-- 42_padder.md R142: the length contract of `pad`, and the trailer's value. -/
def Obligations.PadLengthContract : Prop :=
  ∀ m : List Byte, m.length ≤ 2 ^ 61 - 1 →
    ∃ p : List Byte, pad m = some p ∧
      p.length % 64 = 0 ∧ 0 < p.length ∧
      m.length + 9 ≤ p.length ∧ p.length ≤ m.length + 72 ∧
      p.length = m.length + 9 + zeroCount m.length ∧
      (p.drop (p.length - 8)).foldl (fun acc b => 256 * acc + b.toNat) 0 = 8 * m.length ∧
      (m.length % 64 = 55 → p.length = m.length + 9) ∧ (m.length % 64 = 56 → p.length = m.length + 72)

/-- 42_padder.md R143, R144: the number of blocks, and that `pad` has no value past the limit (`none` is the model's refusal, log
entry 8). -/
def Obligations.PadBlockCount : Prop :=
  (∀ (m p : List Byte), pad m = some p → p.length = 64 * blockCount m.length) ∧
  (∀ m : List Byte, 2 ^ 61 ≤ m.length → pad m = none ∧ Machine.hash m = none) ∧
  (∀ n : Nat, 1 ≤ blockCount n ∧ (n % 64 ≤ 55 → blockCount n = n / 64 + 1) ∧ (56 ≤ n % 64 → blockCount n = n / 64 + 2))

/-- 43_schedule_expander.md R160: Step 1 and Step 2 of `expand`; and R163's extension of the recurrence past word 63, which agrees
with `expand` on the first 64 words. -/
def Obligations.ExpandFollowsTheRecurrence : Prop :=
  ∀ b : Block,
    (∀ i : Fin 16, (expand b)[i.val] = be32 b[4 * i.val] b[4 * i.val + 1] b[4 * i.val + 2] b[4 * i.val + 3]) ∧
    (∀ j : Fin 48, (expand b)[j.val + 16] =
      (expand b)[j.val] + smallSigma0 (expand b)[j.val + 1] + (expand b)[j.val + 9] + smallSigma1 (expand b)[j.val + 14]) ∧
    (∀ j : Fin 64, (expand b)[j.val] = scheduleAt b j.val) ∧
    (∀ j : Nat, scheduleAt b (j + 16) =
      scheduleAt b j + smallSigma0 (scheduleAt b (j + 1)) + scheduleAt b (j + 9) + smallSigma1 (scheduleAt b (j + 14)))

/-- 43_schedule_expander.md R163: `WIN[i] = w[t + i]` at every step with `PH = ROUND`. -/
def Obligations.WindowHoldsTheSchedule : Prop :=
  ∀ (s : State) (j : Nat), s.PH = .load → j ≤ 63 → NoReset (1 + j) s →
    ∃ u : State, run (1 + j) s = .next u ∧ u.PH = .round ∧ u.t.toNat = j ∧
      ∀ i : Fin 16, u.WIN[i] = scheduleAt s.BUF (j + i.val)

/-- 44_compressor.md R179: LOAD, 64 ROUNDs and FEED together are `compress` of `expand`. -/
def Obligations.BlockIsCompressed : Prop :=
  ∀ s : State, s.PH = .load → s.ps ≠ .markerDue → NoReset 66 s →
    ∃ u : State, run 66 s = .next u ∧ u.H = compress s.H (expand s.BUF) ∧
      u.ps = s.ps ∧ u.CNT = s.CNT ∧ u.FC = s.FC ∧
      (s.ps = .open → u.PH = .recv) ∧ (s.ps = .trailerDue → u.PH = .pad) ∧ (s.ps = .last → u.PH = .done)

/-- 10_state.md R38 (h), R26, R21: while a message is open its count, its last bytes and the chaining value of its whole blocks are
where the rules say. -/
def Obligations.OpenMessageIsHeld : Prop :=
  ∀ (s u : State) (m : List Byte) (k : Nat), s.Ready → m.length ≤ 2 ^ 61 - 1 → NoReset k s →
    transfers k s = .init :: m.map .data → run k s = .next u → u.PH = .recv →
    u.CNT.toNat = m.length ∧ u.ps = .open ∧
    (∀ i : Fin 64, i.val < m.length % 64 → u.BUF[i] = m.getD (64 * (m.length / 64) + i.val) 0) ∧
    u.H = chainAfter m (m.length / 64)

/-- 42_padder.md R147: the blocks that the LOAD steps see are those of `pad(m)`, in order, and there is no other LOAD before
DONE. -/
def Obligations.PadderFeedsTheBlocksOfPad : Prop :=
  ∀ (s : State) (m : List Byte) (k : Nat), s.Ready → m.length ≤ 2 ^ 61 - 1 → NoReset (k + tailSteps m.length) s →
    transfers k s = bracket m → (∀ j : Nat, j < k → transfers j s ≠ bracket m) →
    ∃ p : List Byte, pad m = some p ∧
      loadedBlocks (k + tailSteps m.length) s = (List.range (blockCount m.length)).map (blockOf p)

/-- 45_digest_and_hash.md R199: from every ready state without a fault, a well-formed bracket with any steps between its transfers
ends in DONE with `digest = hash(m)`; `k` is the number of steps up to and including the one that transfers FINAL.
The counts 67 and 134 are the spec's reference sequencing (log entry 11). -/
def Obligations.UnitComputesHash : Prop :=
  ∀ (s : State) (m : List Byte) (k : Nat), s.Ready → m.length ≤ 2 ^ 61 - 1 → NoReset (k + tailSteps m.length) s →
    transfers k s = bracket m → (∀ j : Nat, j < k → transfers j s ≠ bracket m) →
    (∀ j : Nat, j ≤ k + tailSteps m.length → ∃ u : State, run j s = .next u ∧ u.PH ≠ .fault) ∧
    (∀ j : Nat, j < tailSteps m.length → ∃ u : State, run (k + j) s = .next u ∧ u.inReady = false) ∧
    ∃ (u : State) (d : Vector Byte 32), run (k + tailSteps m.length) s = .next u ∧ u.PH = .done ∧
      Machine.hash m = some d ∧ u.digest = some (digestOfBytes d) ∧
      ∀ n : Nat, NoReset (k + tailSteps m.length + n) s → transfers (k + tailSteps m.length + n) s = bracket m →
        ∃ v : State, run (k + tailSteps m.length + n) s = .next v ∧ v.digestValid = true ∧ v.digest = u.digest

/-- 70_reset_and_hazards.md R279: the digest is stable until the edge that transfers the next command, or a reset edge; any command
ends it. -/
def Obligations.DigestIsHeldUntilNextCommand : Prop :=
  ∀ s : State, s.PH = .done →
    (∀ k : Nat, NoReset k s → transfers k s = [] →
      ∃ u : State, run k s = .next u ∧ u.digestValid = true ∧ u.digest = s.digest) ∧
    (∀ t : State, step s = .next t → s.pins.rst = true ∨ s.transferred ≠ none → t.digestValid = false)

/-! ## Operands, blocks and renderings -/

/-- 40_word_arithmetic.md R111. -/
def Obligations.AdditionWraps : Prop :=
  ∀ x y : Word, (add32 x y).toNat = (x.toNat + y.toNat) % 2 ^ 32

/-- 40_word_arithmetic.md R113, R114: rotation and shift, bit by bit. -/
def Obligations.RotateAndShiftBitByBit : Prop :=
  ∀ (x : Word) (n i : Nat), 1 ≤ n → n ≤ 31 → i < 32 →
    (rotr x n).getLsbD i = x.getLsbD ((i + n) % 32) ∧
    (shr x n).getLsbD i = (if i + n ≤ 31 then x.getLsbD (i + n) else false)

/-- 40_word_arithmetic.md R120, R121: `Ch` is a multiplexer selected by its first operand, `Maj` a majority, bit by bit. -/
def Obligations.ChooseAndMajorityBitByBit : Prop :=
  ∀ (x y z : Word) (i : Nat), i < 32 →
    (choose x y z).getLsbD i = (if x.getLsbD i then y.getLsbD i else z.getLsbD i) ∧
    ((majority x y z).getLsbD i = true ↔
      2 ≤ (x.getLsbD i).toNat + (y.getLsbD i).toNat + (z.getLsbD i).toNat)

/-- 40_word_arithmetic.md R116 to R119: the four sigma functions, bit by bit in the bits of their operand. -/
def Obligations.SigmasBitByBit : Prop :=
  ∀ (x : Word) (i : Nat), i < 32 →
    (smallSigma0 x).getLsbD i =
      (x.getLsbD ((i + 7) % 32) ^^ x.getLsbD ((i + 18) % 32) ^^ (decide (i + 3 < 32) && x.getLsbD (i + 3))) ∧
    (smallSigma1 x).getLsbD i =
      (x.getLsbD ((i + 17) % 32) ^^ x.getLsbD ((i + 19) % 32) ^^ (decide (i + 10 < 32) && x.getLsbD (i + 10))) ∧
    (bigSigma0 x).getLsbD i =
      (x.getLsbD ((i + 2) % 32) ^^ x.getLsbD ((i + 13) % 32) ^^ x.getLsbD ((i + 22) % 32)) ∧
    (bigSigma1 x).getLsbD i =
      (x.getLsbD ((i + 6) % 32) ^^ x.getLsbD ((i + 11) % 32) ^^ x.getLsbD ((i + 25) % 32))

/-- 20_memory.md R63: what is written is read back, big-endian; every other byte stays. -/
def Obligations.BlockReadAfterWrite : Prop :=
  ∀ (b : Block) (addr n : Nat) (v : BitVec (8 * n)) (h : addr + n ≤ 64),
    memRead (memWrite b addr n v h) addr n h = v ∧
    (∀ k : Fin 64, k.val < n → ∀ hk : addr + k.val < 64,
      (memWrite b addr n v h)[addr + k.val] = v.extractLsb' (8 * (n - k.val - 1)) 8) ∧
    (∀ i : Fin 64, i.val < addr ∨ addr + n ≤ i.val → (memWrite b addr n v h)[i] = b[i])

/-- 40_word_arithmetic.md R122, R123, R124: the packings are inverse and big-endian, and the bit length is `8 * CNT`. -/
def Obligations.PackingIsBigEndian : Prop :=
  (∀ x : Word, be32 (bytes32 x)[0] (bytes32 x)[1] (bytes32 x)[2] (bytes32 x)[3] = x) ∧
  (∀ b0 b1 b2 b3 : Byte, (be32 b0 b1 b2 b3).toNat =
    b0.toNat * 2 ^ 24 + b1.toNat * 2 ^ 16 + b2.toNat * 2 ^ 8 + b3.toNat) ∧
  (∀ l : BitVec 64, (bytes64 l).toList.foldl (fun acc b => 256 * acc + b.toNat) 0 = l.toNat) ∧
  (∀ c : BitVec 61, (bitLength c).toNat = 8 * c.toNat ∧ (low6 c).toNat = c.toNat % 64)

/-- 45_digest_and_hash.md R197: 64 lowercase characters, two per byte, most significant nibble first; the digits are `0` to `9` (codes
48 to 57), then `a` to `f` (codes 97 to 102). -/
def Obligations.HexDigestIsLowercase : Prop :=
  ∀ d : Vector Byte 32,
    (lowercaseHex d).length = 64 ∧
    (∀ c ∈ lowercaseHex d, ('0' ≤ c ∧ c ≤ '9') ∨ ('a' ≤ c ∧ c ≤ 'f')) ∧
    (∀ k : Fin 32, (lowercaseHex d)[2 * k.val]? = some (hexDigit (d[k].extractLsb' 4 4)) ∧
      (lowercaseHex d)[2 * k.val + 1]? = some (hexDigit (d[k].extractLsb' 0 4))) ∧
    (∀ x : BitVec 4, hexDigit x = Char.ofNat (if x.toNat < 10 then 48 + x.toNat else 87 + x.toNat)) ∧
    (∀ x y : BitVec 4, hexDigit x = hexDigit y → x = y) ∧
    (∀ m : List Byte, hexDigest m = (Machine.hash m).map lowercaseHex)

/-- 30_encoding.md R97: a command's line is offered with its word until a step with `in_ready = 1`, which transfers it; IDLE and
RESET last for their edges whatever `in_ready` is, and IDLE 0 for none, wherever it stands. R98: WAIT is
idle until a step with `in_ready = 1`, and MSG. That WAIT takes that step too is the model's choice (log entry 15). -/
def Obligations.LinesAreOfferedUntilTransferred : Prop :=
  (∀ (l : StreamLine) (w : CmdWord) (rest : List StreamLine),
    (l = .init ∧ w = 0x000#10) ∨ (∃ b : Byte, l = .data b ∧ w = 0x100#10 + b.setWidth 10) ∨
      (l = .final ∧ w = 0x200#10) ∨ (l = .rsv ∧ w = 0x300#10) →
    playEdge false (l :: rest) = (⟨false, true, w⟩, l :: rest) ∧ playEdge true (l :: rest) = (⟨false, true, w⟩, rest)) ∧
  (∀ (ready : Bool) (rest : List StreamLine),
    playEdge ready (.idle 0 :: rest) = playEdge ready rest ∧
    playEdge ready (.idle 1 :: rest) = (quietPins, rest) ∧
    (∀ n : Nat, playEdge ready (.idle (n + 2) :: rest) = (quietPins, .idle (n + 1) :: rest)) ∧
    (playEdge ready (.reset :: rest)).1.rst = true ∧ (playEdge ready (.reset :: rest)).2 = rest ∧
    playEdge false (.wait :: rest) = (quietPins, .wait :: rest) ∧ playEdge true (.wait :: rest) = (quietPins, rest)) ∧
  (∀ (k : Nat) (rest : List StreamLine) (s : State),
    playLines k [] s = .next s ∧ playLines k (.idle 0 :: rest) s = playLines k rest s) ∧
  quietPins.rst = false ∧ quietPins.inValid = false ∧ StreamLine.abort = .init ∧
  ∀ m : List Byte, messageLines m = .init :: (m.map .data ++ [.final, .wait])

/-- 41_constant_tables.md R130, R131: the words of the two ROMs are the first 32 bits of the fractional parts of the square roots of the
first 8 primes and of the cube roots of the first 64 primes, 2 to 311. -/
def Obligations.RomWordsAreRootsOfPrimes : Prop :=
  ∃ primes : Vector Nat 64,
    (∀ p : Nat, p ∈ primes ↔ p < 312 ∧ p.Prime) ∧
    (∀ i : Fin 63, primes[i.val] < primes[i.val + 1]) ∧
    (∀ i : Fin 8, IV[i].toNat = Nat.sqrt (primes[i.val] * 2 ^ 64) % 2 ^ 32) ∧
    (∀ j : Fin 64, ∃ c : Nat, c ^ 3 ≤ primes[j] * 2 ^ 96 ∧ primes[j] * 2 ^ 96 < (c + 1) ^ 3 ∧ K[j].toNat = c % 2 ^ 32)
end

