-- ==== Sys2Proof/Laws/Decode.lean ====
section
/-! SUPPORT. The fields of a command word, and what the decoder and the placing of a word do with an encoding. -/

namespace Sys2Proof

/-- The bits of a command word: the opcode above the data. -/
theorem commandWord_getLsbD (op : BitVec 2) (d : Byte) (i : Nat) :
    (commandWord op d).getLsbD i = if i < 8 then d.getLsbD i else op.getLsbD (i - 8) :=
  (BitVec.getLsbD_append (x := op) (y := d) (i := i)).trans (by by_cases h : i < 8 <;> simp [h])

theorem opField_commandWord (op : BitVec 2) (d : Byte) : opField (commandWord op d) = op := by
  apply BitVec.eq_of_getLsbD_eq
  intro i hi
  rw [opField, BitVec.getLsbD_extractLsb', commandWord_getLsbD, if_neg (by omega), Nat.add_sub_cancel_left]
  simp [hi]

theorem dataField_commandWord (op : BitVec 2) (d : Byte) : dataField (commandWord op d) = d := by
  apply BitVec.eq_of_getLsbD_eq
  intro i hi
  rw [dataField, BitVec.getLsbD_extractLsb', commandWord_getLsbD, if_pos (by omega), Nat.zero_add]
  simp [hi]

/-- A command word is its two fields (30_encoding.md R91). -/
theorem commandWord_fields (w : CmdWord) : commandWord (opField w) (dataField w) = w := by
  apply BitVec.eq_of_getLsbD_eq
  intro i hi
  rw [commandWord_getLsbD, opField, dataField, BitVec.getLsbD_extractLsb', BitVec.getLsbD_extractLsb']
  by_cases h : i < 8
  · simp [h]
  · have h2 : i - 8 < 2 := by omega
    have e : 8 + (i - 8) = i := by omega
    simp [h, h2, e]

/-- The bits of an instruction's encoding, taken as a command word, decode to it if it is a command. -/
theorem decodeCommand_encode {i : Instr} (h : i.isCommand = true) :
    decodeCommand (BitVec.ofNat 10 (encode i).bits) = i := by
  cases i <;> first | (cases h; done) |
    simp [encode, decodeCommand, opField_commandWord, dataField_commandWord]

/-- The bits of a command's encoding fit the command word. -/
theorem encode_bits_lt {i : Instr} (h : i.isCommand = true) : (encode i).bits < 1024 := by
  cases i <;> first | (cases h; done) | exact (commandWord _ _).isLt

/-- Two whole bytes decode as a command word. -/
theorem decodeTableWord_command {w : Nat} (h : w < 1024) :
    decodeTableWord 16 w = some (decodeCommand (BitVec.ofNat 10 w)) := by
  simp [decodeTableWord, formatOfWidth, decode, h]

end Sys2Proof
end

