-- ==== Sys2Proof/Laws/Operands.lean ====
section
/-! SUPPORT. What the operations on words and blocks do, element by element. -/

namespace Sys2Proof.Machine

/-! ## Blocks -/

/-- A write changes exactly the `n` bytes from `addr` on. -/
theorem memWrite_getElem (b : Block) (addr n : Nat) (v : BitVec (8 * n)) (h : addr + n ≤ 64) (i : Nat) (hi : i < 64) :
    (memWrite b addr n v h)[i] = if addr ≤ i ∧ i < addr + n then byteOf n v (i - addr) else b[i] := by
  simp [memWrite]

/-- A byte outside a write is what it was. -/
theorem memWrite_getElem_outside (b : Block) (addr n : Nat) (v : BitVec (8 * n)) (h : addr + n ≤ 64) (i : Nat)
    (hi : i < 64) (ho : i < addr ∨ addr + n ≤ i) : (memWrite b addr n v h)[i] = b[i] := by
  rw [memWrite_getElem, if_neg (by omega)]

/-- The bytes from `lo` to `hi - 1` become zero, and no other. -/
theorem fillZero_getElem (b : Block) (lo hi i : Nat) (h : i < 64) :
    (fillZero b lo hi)[i] = if lo ≤ i ∧ i < hi then 0 else b[i] := by
  simp [fillZero]

/-- A four-byte read is big-endian (20_memory.md R62, R63; 40_word_arithmetic.md R122). -/
theorem memRead_four (b : Block) (addr : Nat) (h : addr + 4 ≤ 64) :
    memRead b addr 4 h = be32 b[addr] b[addr + 1] b[addr + 2] b[addr + 3] := by
  simp only [memRead, be32]
  rw [show b[addr + 0] = b[addr] from rfl]
  congr 3
  exact BitVec.zero_width_append _ _

/-- The one byte of a one-byte write. -/
theorem byteOf_one (v : BitVec (8 * 1)) : byteOf 1 v 0 = v := by
  simp [byteOf]

/-- DATA's byte goes to index `CNT mod 64`; every other byte stays (46_host_commands.md R212). -/
theorem putByte_getElem (b : Byte) (cnt : BitVec 61) (buf : Block) (i : Nat) (hi : i < 64) :
    (putByte b cnt buf)[i] = if i = (low6 cnt).toNat then b else buf[i] := by
  rw [putByte, memWrite_getElem]
  by_cases h : i = (low6 cnt).toNat
  · subst h
    rw [if_pos (by omega), if_pos rfl, Nat.sub_self, byteOf_one]
  · rw [if_neg (by omega), if_neg h]

/-- The marker block: message bytes, marker, zeros (42_padder.md R146). -/
theorem markBlock_getElem (cnt : BitVec 61) (buf : Block) (i : Nat) (hi : i < 64) :
    (markBlock cnt buf)[i] =
      if i < (low6 cnt).toNat then buf[i] else if i = (low6 cnt).toNat then 0x80#8 else 0#8 := by
  rw [markBlock, fillZero_getElem, memWrite_getElem]
  by_cases h : i < (low6 cnt).toNat
  · rw [if_neg (by omega), if_neg (by omega), if_pos h]
  · by_cases h' : i = (low6 cnt).toNat
    · subst h'
      rw [if_neg (by omega), if_pos (by omega), if_neg h, if_pos rfl, Nat.sub_self, byteOf_one]
    · rw [if_pos (by omega), if_neg h, if_neg h']
      rfl

/-- The trailer: the eight bytes of `8 * CNT` at 56, most significant first (42_padder.md R146). -/
theorem putTrailer_getElem (cnt : BitVec 61) (buf : Block) (i : Nat) (hi : i < 64) :
    (putTrailer cnt buf)[i] = if h : 56 ≤ i then (bytes64 (bitLength cnt))[i - 56] else buf[i] := by
  rw [putTrailer, memWrite_getElem]
  by_cases h : 56 ≤ i
  · rw [if_pos (by omega), dif_pos h]
    simp [bytes64]
  · rw [if_neg (by omega), dif_neg h]

/-- `CNT mod 64` as a number (40_word_arithmetic.md R124). -/
theorem low6_toNat (cnt : BitVec 61) : (low6 cnt).toNat = cnt.toNat % 64 := by
  simp [low6]

/-- The bit length as a number (R124). -/
theorem bitLength_toNat (cnt : BitVec 61) : (bitLength cnt).toNat = 8 * cnt.toNat := by
  simp only [bitLength, BitVec.toNat_append]
  simp
  omega

/-- An increment below the limit does not wrap (R124). -/
theorem cnt_succ_toNat (cnt : BitVec 61) (h : cnt ≠ maxCount) : (cnt + 1#61).toNat = cnt.toNat + 1 := by
  have hl := cnt.isLt
  have hn : cnt.toNat ≠ 2 ^ 61 - 1 := by
    intro e
    apply h
    apply BitVec.eq_of_toNat_eq
    rw [e]
    rfl
  rw [BitVec.toNat_add]
  simp
  omega

/-! ## Windows and lanes -/

/-- The window LOAD makes is Step 1 of the schedule (43_schedule_expander.md R160, R161). -/
theorem loadWindow_getElem (buf : Block) (i : Nat) (hi : i < 16) : (loadWindow buf)[i] = blockWord buf ⟨i, hi⟩ := by
  simp only [loadWindow, Vector.getElem_ofFn, blockWord]
  exact memRead_four buf (4 * i) (by omega)

/-- The window shift, word by word (R162). -/
theorem wshift_getElem (win : Vector Word 16) (i : Nat) (hi : i < 16) :
    (wshift win)[i] = if h : i < 15 then win[i + 1] else scheduleWord win[0] win[1] win[9] win[14] := by
  simp [wshift]

/-- Lanes are added independently (44_compressor.md R178). -/
theorem addLanes_getElem (x y : Words8) (i : Nat) (hi : i < 8) : (addLanes x y)[i] = x[i] + y[i] := by
  simp [addLanes, add32]

/-! ## The schedule -/

theorem withNextWord_length (ws : List Word) : (withNextWord ws).length = ws.length + 1 := by
  simp [withNextWord]

theorem scheduleUpTo_length (b : Block) (n : Nat) : (scheduleUpTo b n).length = 16 + n := by
  induction n with
  | zero => simp [scheduleUpTo]
  | succ n ih => rw [scheduleUpTo, withNextWord_length, ih]; omega

/-- Words already made are kept. -/
theorem scheduleUpTo_stable (b : Block) (n k j : Nat) (h : j < 16 + n) :
    (scheduleUpTo b (n + k)).getD j 0 = (scheduleUpTo b n).getD j 0 := by
  induction k with
  | zero => rfl
  | succ k ih =>
    have hl : j < (scheduleUpTo b (n + k)).length := by rw [scheduleUpTo_length]; omega
    rw [← Nat.add_assoc, scheduleUpTo, withNextWord, ← ih]
    simp only [List.getD_eq_getElem?_getD]
    rw [List.getElem?_append_left hl]

/-- Any long enough prefix of the schedule holds word `j`. -/
theorem scheduleAt_eq (b : Block) (n j : Nat) (h : j < 16 + n) : (scheduleUpTo b n).getD j 0 = scheduleAt b j := by
  by_cases hj : j - 15 ≤ n
  · obtain ⟨k, rfl⟩ := Nat.exists_eq_add_of_le hj
    exact scheduleUpTo_stable b _ k j (by omega)
  · omega

/-- The first sixteen words are the block's (43_schedule_expander.md R160, Step 1). -/
theorem scheduleAt_block (b : Block) (j : Nat) (h : j < 16) : scheduleAt b j = blockWord b ⟨j, h⟩ := by
  have e := scheduleAt_eq b 0 j (by omega)
  rw [← e, scheduleUpTo]
  simp [List.getD_eq_getElem?_getD, h]

/-- The recurrence (R160, Step 2; R163), in the form the window needs. -/
theorem scheduleAt_add_sixteen (b : Block) (j : Nat) :
    scheduleAt b (j + 16) =
      scheduleWord (scheduleAt b j) (scheduleAt b (j + 1)) (scheduleAt b (j + 9)) (scheduleAt b (j + 14)) := by
  have e := scheduleAt_eq b (j + 1) (j + 16) (by omega)
  have hl := scheduleUpTo_length b j
  rw [← e, scheduleUpTo, withNextWord, hl]
  simp only [List.getD_eq_getElem?_getD]
  rw [List.getElem?_append_right (by omega), hl]
  simp only [show j + 16 - (16 + j) = 0 by omega, List.getElem?_cons_zero, Option.getD_some]
  simp only [← List.getD_eq_getElem?_getD]
  rw [show 16 + j - 16 = j by omega, show 16 + j - 15 = j + 1 by omega, show 16 + j - 7 = j + 9 by omega,
    show 16 + j - 2 = j + 14 by omega, scheduleAt_eq b j _ (by omega), scheduleAt_eq b j _ (by omega),
    scheduleAt_eq b j _ (by omega), scheduleAt_eq b j _ (by omega)]

/-- `expand` gives the schedule's first 64 words (R160). -/
theorem expand_getElem (b : Block) (j : Nat) (h : j < 64) : (expand b)[j] = scheduleAt b j := by
  simp only [expand, Vector.getElem_ofFn]
  exact scheduleAt_eq b 48 j (by omega)

end Sys2Proof.Machine
end

