-- ==== Sys2Proof/Laws/PerInstr.lean ====
section
/-! SUPPORT. Statements about every instruction as syntax, one lemma per constructor. -/

namespace Sys2Proof.Laws.EncodingWellFormed

/-- The canonical encoding of the instruction fits its format and names a row of the table (30_encoding.md R92, R96). -/
def Statement (i : Instr) : Prop :=
  (encode i).wf = true

theorem init : Statement .init := rfl

theorem data (b : Byte) : Statement (.data b) := by
  have h : (commandWord 0b01#2 b).toNat < 2 ^ 10 := (commandWord 0b01#2 b).isLt
  simp only [Statement, encode, RawWord.wf, RawWord.fits, RawWord.selectsRow, Format.width, Bool.and_true, h, decide_true]

theorem final : Statement .final := rfl

theorem rsv : Statement .rsv := rfl

theorem pad : Statement .pad := rfl

theorem load : Statement .load := rfl

theorem round : Statement .round := rfl

theorem feed : Statement .feed := rfl

end Sys2Proof.Laws.EncodingWellFormed
end

