-- ==== Sys2Proof/Laws/State.lean ====
section
/-! SUPPORT. One lemma per field per named update of the state, each true by unfolding, so that no later proof opens a record
update. -/

namespace Sys2Proof.Machine

/-! ## State.nextEdge -/

@[simp] theorem State.nextEdge_H (s : State) : s.nextEdge.H = s.H := rfl
@[simp] theorem State.nextEdge_V (s : State) : s.nextEdge.V = s.V := rfl
@[simp] theorem State.nextEdge_WIN (s : State) : s.nextEdge.WIN = s.WIN := rfl
@[simp] theorem State.nextEdge_BUF (s : State) : s.nextEdge.BUF = s.BUF := rfl
@[simp] theorem State.nextEdge_CNT (s : State) : s.nextEdge.CNT = s.CNT := rfl
@[simp] theorem State.nextEdge_PH (s : State) : s.nextEdge.PH = s.PH := rfl
@[simp] theorem State.nextEdge_t (s : State) : s.nextEdge.t = s.t := rfl
@[simp] theorem State.nextEdge_ps (s : State) : s.nextEdge.ps = s.ps := rfl
@[simp] theorem State.nextEdge_FC (s : State) : s.nextEdge.FC = s.FC := rfl
@[simp] theorem State.nextEdge_inputs (s : State) : s.nextEdge.inputs = s.inputs.tail := rfl
@[simp] theorem State.nextEdge_draws (s : State) : s.nextEdge.draws = s.draws := rfl

/-! ## raise -/

@[simp] theorem raise_H (code : FaultCode) (s : State) : (raise code s).H = s.H := rfl
@[simp] theorem raise_V (code : FaultCode) (s : State) : (raise code s).V = s.V := rfl
@[simp] theorem raise_WIN (code : FaultCode) (s : State) : (raise code s).WIN = s.WIN := rfl
@[simp] theorem raise_BUF (code : FaultCode) (s : State) : (raise code s).BUF = s.BUF := rfl
@[simp] theorem raise_CNT (code : FaultCode) (s : State) : (raise code s).CNT = s.CNT := rfl
@[simp] theorem raise_PH (code : FaultCode) (s : State) : (raise code s).PH = .fault := rfl
@[simp] theorem raise_t (code : FaultCode) (s : State) : (raise code s).t = s.t := rfl
@[simp] theorem raise_ps (code : FaultCode) (s : State) : (raise code s).ps = s.ps := rfl
@[simp] theorem raise_FC (code : FaultCode) (s : State) : (raise code s).FC = code := rfl
@[simp] theorem raise_inputs (code : FaultCode) (s : State) : (raise code s).inputs = s.inputs := rfl
@[simp] theorem raise_draws (code : FaultCode) (s : State) : (raise code s).draws = s.draws := rfl

/-! ## resetEdge -/

@[simp] theorem resetEdge_H (s : State) :
    (resetEdge s).H =
      (Vector.ofFn fun i => Config.wordAfterReset s.draws .H i.val s.H[i]) := rfl
@[simp] theorem resetEdge_V (s : State) :
    (resetEdge s).V =
      (Vector.ofFn fun i => Config.wordAfterReset s.draws .V i.val s.V[i]) := rfl
@[simp] theorem resetEdge_WIN (s : State) :
    (resetEdge s).WIN =
      (Vector.ofFn fun i => Config.wordAfterReset s.draws .WIN i.val s.WIN[i]) := rfl
@[simp] theorem resetEdge_BUF (s : State) :
    (resetEdge s).BUF =
      (Vector.ofFn fun i => Config.byteAfterReset s.draws i.val s.BUF[i]) := rfl
@[simp] theorem resetEdge_CNT (s : State) : (resetEdge s).CNT = 0#61 := rfl
@[simp] theorem resetEdge_PH (s : State) : (resetEdge s).PH = .idle := rfl
@[simp] theorem resetEdge_t (s : State) : (resetEdge s).t = 0#6 := rfl
@[simp] theorem resetEdge_ps (s : State) : (resetEdge s).ps = .open := rfl
@[simp] theorem resetEdge_FC (s : State) : (resetEdge s).FC = .clear := rfl
@[simp] theorem resetEdge_inputs (s : State) : (resetEdge s).inputs = s.inputs := rfl
@[simp] theorem resetEdge_draws (s : State) : (resetEdge s).draws = s.draws + 1 := rfl

/-! ## openMessage -/

@[simp] theorem openMessage_H (s : State) : (openMessage s).H = IV := rfl
@[simp] theorem openMessage_V (s : State) : (openMessage s).V = s.V := rfl
@[simp] theorem openMessage_WIN (s : State) : (openMessage s).WIN = s.WIN := rfl
@[simp] theorem openMessage_BUF (s : State) : (openMessage s).BUF = s.BUF := rfl
@[simp] theorem openMessage_CNT (s : State) : (openMessage s).CNT = 0#61 := rfl
@[simp] theorem openMessage_PH (s : State) : (openMessage s).PH = .recv := rfl
@[simp] theorem openMessage_t (s : State) : (openMessage s).t = s.t := rfl
@[simp] theorem openMessage_ps (s : State) : (openMessage s).ps = .open := rfl
@[simp] theorem openMessage_FC (s : State) : (openMessage s).FC = s.FC := rfl
@[simp] theorem openMessage_inputs (s : State) : (openMessage s).inputs = s.inputs := rfl
@[simp] theorem openMessage_draws (s : State) : (openMessage s).draws = s.draws := rfl

/-! ## appendByte -/

@[simp] theorem appendByte_H (b : Byte) (s : State) : (appendByte b s).H = s.H := by simp only [appendByte]
@[simp] theorem appendByte_V (b : Byte) (s : State) : (appendByte b s).V = s.V := by simp only [appendByte]
@[simp] theorem appendByte_WIN (b : Byte) (s : State) : (appendByte b s).WIN = s.WIN := by simp only [appendByte]
@[simp] theorem appendByte_BUF (b : Byte) (s : State) : (appendByte b s).BUF = putByte b s.CNT s.BUF := by simp only [appendByte]
@[simp] theorem appendByte_CNT (b : Byte) (s : State) : (appendByte b s).CNT = s.CNT + 1#61 := by simp only [appendByte]
@[simp] theorem appendByte_PH (b : Byte) (s : State) :
    (appendByte b s).PH =
      (if low6 s.CNT = 63#6 then .load else s.PH) := by simp only [appendByte]
@[simp] theorem appendByte_t (b : Byte) (s : State) : (appendByte b s).t = s.t := by simp only [appendByte]
@[simp] theorem appendByte_ps (b : Byte) (s : State) : (appendByte b s).ps = s.ps := by simp only [appendByte]
@[simp] theorem appendByte_FC (b : Byte) (s : State) : (appendByte b s).FC = s.FC := by simp only [appendByte]
@[simp] theorem appendByte_inputs (b : Byte) (s : State) : (appendByte b s).inputs = s.inputs := by simp only [appendByte]
@[simp] theorem appendByte_draws (b : Byte) (s : State) : (appendByte b s).draws = s.draws := by simp only [appendByte]

/-! ## closeMessage -/

@[simp] theorem closeMessage_H (s : State) : (closeMessage s).H = s.H := rfl
@[simp] theorem closeMessage_V (s : State) : (closeMessage s).V = s.V := rfl
@[simp] theorem closeMessage_WIN (s : State) : (closeMessage s).WIN = s.WIN := rfl
@[simp] theorem closeMessage_BUF (s : State) : (closeMessage s).BUF = s.BUF := rfl
@[simp] theorem closeMessage_CNT (s : State) : (closeMessage s).CNT = s.CNT := rfl
@[simp] theorem closeMessage_PH (s : State) : (closeMessage s).PH = .pad := rfl
@[simp] theorem closeMessage_t (s : State) : (closeMessage s).t = s.t := rfl
@[simp] theorem closeMessage_ps (s : State) : (closeMessage s).ps = .markerDue := rfl
@[simp] theorem closeMessage_FC (s : State) : (closeMessage s).FC = s.FC := rfl
@[simp] theorem closeMessage_inputs (s : State) : (closeMessage s).inputs = s.inputs := rfl
@[simp] theorem closeMessage_draws (s : State) : (closeMessage s).draws = s.draws := rfl

/-! ## padMarker -/

@[simp] theorem padMarker_H (s : State) : (padMarker s).H = s.H := by simp only [padMarker]
@[simp] theorem padMarker_V (s : State) : (padMarker s).V = s.V := by simp only [padMarker]
@[simp] theorem padMarker_WIN (s : State) : (padMarker s).WIN = s.WIN := by simp only [padMarker]
@[simp] theorem padMarker_BUF (s : State) :
    (padMarker s).BUF =
      (if (low6 s.CNT).toNat ≤ 55 then putTrailer s.CNT (markBlock s.CNT s.BUF) else markBlock s.CNT s.BUF) := by simp only [padMarker]
@[simp] theorem padMarker_CNT (s : State) : (padMarker s).CNT = s.CNT := by simp only [padMarker]
@[simp] theorem padMarker_PH (s : State) : (padMarker s).PH = .load := by simp only [padMarker]
@[simp] theorem padMarker_t (s : State) : (padMarker s).t = s.t := by simp only [padMarker]
@[simp] theorem padMarker_ps (s : State) :
    (padMarker s).ps =
      (if (low6 s.CNT).toNat ≤ 55 then .last else .trailerDue) := by simp only [padMarker]
@[simp] theorem padMarker_FC (s : State) : (padMarker s).FC = s.FC := by simp only [padMarker]
@[simp] theorem padMarker_inputs (s : State) : (padMarker s).inputs = s.inputs := by simp only [padMarker]
@[simp] theorem padMarker_draws (s : State) : (padMarker s).draws = s.draws := by simp only [padMarker]

/-! ## padTrailer -/

@[simp] theorem padTrailer_H (s : State) : (padTrailer s).H = s.H := by simp only [padTrailer]
@[simp] theorem padTrailer_V (s : State) : (padTrailer s).V = s.V := by simp only [padTrailer]
@[simp] theorem padTrailer_WIN (s : State) : (padTrailer s).WIN = s.WIN := by simp only [padTrailer]
@[simp] theorem padTrailer_BUF (s : State) : (padTrailer s).BUF = putTrailer s.CNT (fillZero s.BUF 0 56) := by simp only [padTrailer]
@[simp] theorem padTrailer_CNT (s : State) : (padTrailer s).CNT = s.CNT := by simp only [padTrailer]
@[simp] theorem padTrailer_PH (s : State) : (padTrailer s).PH = .load := by simp only [padTrailer]
@[simp] theorem padTrailer_t (s : State) : (padTrailer s).t = s.t := by simp only [padTrailer]
@[simp] theorem padTrailer_ps (s : State) : (padTrailer s).ps = .last := by simp only [padTrailer]
@[simp] theorem padTrailer_FC (s : State) : (padTrailer s).FC = s.FC := by simp only [padTrailer]
@[simp] theorem padTrailer_inputs (s : State) : (padTrailer s).inputs = s.inputs := by simp only [padTrailer]
@[simp] theorem padTrailer_draws (s : State) : (padTrailer s).draws = s.draws := by simp only [padTrailer]

/-! ## loadBlock -/

@[simp] theorem loadBlock_H (s : State) : (loadBlock s).H = s.H := rfl
@[simp] theorem loadBlock_V (s : State) : (loadBlock s).V = s.H := rfl
@[simp] theorem loadBlock_WIN (s : State) : (loadBlock s).WIN = loadWindow s.BUF := rfl
@[simp] theorem loadBlock_BUF (s : State) : (loadBlock s).BUF = s.BUF := rfl
@[simp] theorem loadBlock_CNT (s : State) : (loadBlock s).CNT = s.CNT := rfl
@[simp] theorem loadBlock_PH (s : State) : (loadBlock s).PH = .round := rfl
@[simp] theorem loadBlock_t (s : State) : (loadBlock s).t = 0#6 := rfl
@[simp] theorem loadBlock_ps (s : State) : (loadBlock s).ps = s.ps := rfl
@[simp] theorem loadBlock_FC (s : State) : (loadBlock s).FC = s.FC := rfl
@[simp] theorem loadBlock_inputs (s : State) : (loadBlock s).inputs = s.inputs := rfl
@[simp] theorem loadBlock_draws (s : State) : (loadBlock s).draws = s.draws := rfl

/-! ## roundStep -/

@[simp] theorem roundStep_H (s : State) : (roundStep s).H = s.H := rfl
@[simp] theorem roundStep_V (s : State) : (roundStep s).V = round (roundIndex s.t) s.V s.WIN[0] := rfl
@[simp] theorem roundStep_WIN (s : State) : (roundStep s).WIN = wshift s.WIN := rfl
@[simp] theorem roundStep_BUF (s : State) : (roundStep s).BUF = s.BUF := rfl
@[simp] theorem roundStep_CNT (s : State) : (roundStep s).CNT = s.CNT := rfl
@[simp] theorem roundStep_PH (s : State) : (roundStep s).PH = if s.t = 63#6 then .feed else .round := rfl
@[simp] theorem roundStep_t (s : State) : (roundStep s).t = if s.t = 63#6 then s.t else s.t + 1#6 := rfl
@[simp] theorem roundStep_ps (s : State) : (roundStep s).ps = s.ps := rfl
@[simp] theorem roundStep_FC (s : State) : (roundStep s).FC = s.FC := rfl
@[simp] theorem roundStep_inputs (s : State) : (roundStep s).inputs = s.inputs := rfl
@[simp] theorem roundStep_draws (s : State) : (roundStep s).draws = s.draws := rfl

/-! ## feedForward -/

@[simp] theorem feedForward_H (p : Phase) (s : State) : (feedForward p s).H = addLanes s.H s.V := rfl
@[simp] theorem feedForward_V (p : Phase) (s : State) : (feedForward p s).V = s.V := rfl
@[simp] theorem feedForward_WIN (p : Phase) (s : State) : (feedForward p s).WIN = s.WIN := rfl
@[simp] theorem feedForward_BUF (p : Phase) (s : State) : (feedForward p s).BUF = s.BUF := rfl
@[simp] theorem feedForward_CNT (p : Phase) (s : State) : (feedForward p s).CNT = s.CNT := rfl
@[simp] theorem feedForward_PH (p : Phase) (s : State) : (feedForward p s).PH = p := rfl
@[simp] theorem feedForward_t (p : Phase) (s : State) : (feedForward p s).t = s.t := rfl
@[simp] theorem feedForward_ps (p : Phase) (s : State) : (feedForward p s).ps = s.ps := rfl
@[simp] theorem feedForward_FC (p : Phase) (s : State) : (feedForward p s).FC = s.FC := rfl
@[simp] theorem feedForward_inputs (p : Phase) (s : State) : (feedForward p s).inputs = s.inputs := rfl
@[simp] theorem feedForward_draws (p : Phase) (s : State) : (feedForward p s).draws = s.draws := rfl

/-! ## placeCommand -/

@[simp] theorem placeCommand_H (w : CmdWord) (s : State) : (placeCommand w s).H = s.H := rfl
@[simp] theorem placeCommand_V (w : CmdWord) (s : State) : (placeCommand w s).V = s.V := rfl
@[simp] theorem placeCommand_WIN (w : CmdWord) (s : State) : (placeCommand w s).WIN = s.WIN := rfl
@[simp] theorem placeCommand_BUF (w : CmdWord) (s : State) : (placeCommand w s).BUF = s.BUF := rfl
@[simp] theorem placeCommand_CNT (w : CmdWord) (s : State) : (placeCommand w s).CNT = s.CNT := rfl
@[simp] theorem placeCommand_PH (w : CmdWord) (s : State) :
    (placeCommand w s).PH =
      (if s.PH.ready then s.PH else .recv) := rfl
@[simp] theorem placeCommand_t (w : CmdWord) (s : State) : (placeCommand w s).t = s.t := rfl
@[simp] theorem placeCommand_ps (w : CmdWord) (s : State) :
    (placeCommand w s).ps =
      (if s.PH.ready then s.ps else .open) := rfl
@[simp] theorem placeCommand_FC (w : CmdWord) (s : State) : (placeCommand w s).FC = s.FC := rfl
@[simp] theorem placeCommand_inputs (w : CmdWord) (s : State) :
    (placeCommand w s).inputs =
      (⟨false, true, w⟩ :: s.inputs.tail) := rfl
@[simp] theorem placeCommand_draws (w : CmdWord) (s : State) : (placeCommand w s).draws = s.draws := rfl

/-! ## placePhase -/

@[simp] theorem placePhase_H (p : Phase) (s : State) : (placePhase p s).H = s.H := rfl
@[simp] theorem placePhase_V (p : Phase) (s : State) : (placePhase p s).V = s.V := rfl
@[simp] theorem placePhase_WIN (p : Phase) (s : State) : (placePhase p s).WIN = s.WIN := rfl
@[simp] theorem placePhase_BUF (p : Phase) (s : State) : (placePhase p s).BUF = s.BUF := rfl
@[simp] theorem placePhase_CNT (p : Phase) (s : State) : (placePhase p s).CNT = s.CNT := rfl
@[simp] theorem placePhase_PH (p : Phase) (s : State) : (placePhase p s).PH = p := rfl
@[simp] theorem placePhase_t (p : Phase) (s : State) : (placePhase p s).t = s.t := rfl
@[simp] theorem placePhase_ps (p : Phase) (s : State) : (placePhase p s).ps = stageFor p s.ps := rfl
@[simp] theorem placePhase_FC (p : Phase) (s : State) : (placePhase p s).FC = s.FC := rfl
@[simp] theorem placePhase_inputs (p : Phase) (s : State) :
    (placePhase p s).inputs =
      (quietPins :: s.inputs.tail) := rfl
@[simp] theorem placePhase_draws (p : Phase) (s : State) : (placePhase p s).draws = s.draws := rfl

end Sys2Proof.Machine
end

