-- ==== Sys2Proof/Laws/Step.lean ====
section
/-! SUPPORT. What each shared operation can do, said once, and the inversion of a step: if it answers a next state, it took one
of the listed transitions (46_host_commands.md R217). Later proofs cite these and open no definition. -/

namespace Sys2Proof.Machine

/-! ## Guards -/

/-- If a command's guard answers a next state, the command was discarded, or it had its effect in a ready phase. -/
theorem onTransfer_next {s t : State} {e : Result} (h : onTransfer s e = .next t) :
    (t = s ∧ (s.PH.ready = false ∨ s.PH = .fault)) ∨ (s.Ready ∧ e = .next t) := by
  unfold onTransfer at h
  split at h <;> rename_i hp
  · cases h; simp [hp, Phase.ready]
  · cases h; simp [hp, Phase.ready]
  · cases h; simp [hp, Phase.ready]
  · cases h; simp [hp, Phase.ready]
  · cases h; simp [hp]
  · right; simp [State.Ready, hp, h]
  · right; simp [State.Ready, hp, h]
  · split at h
    · cases h
    · rename_i hb
      right
      simp only [recvBroken, hp, beq_self_eq_true, Bool.true_and, bne_iff_ne, ne_eq, Decidable.not_not] at hb
      exact ⟨⟨.inr (.inl hp), fun _ => hb⟩, h⟩

/-- In a state that takes commands, a command has its effect. -/
theorem onTransfer_ready {s : State} (e : Result) (h : s.Ready) : onTransfer s e = e := by
  obtain ⟨hp | hp | hp, hs⟩ := h
  · simp [onTransfer, hp]
  · simp [onTransfer, hp, recvBroken, hs hp]
  · simp [onTransfer, hp]

/-- A command has no effect in a busy phase and is discarded in FAULT. -/
theorem onTransfer_ignored {s : State} (e : Result) (h : s.PH.ready = false ∨ s.PH = .fault) : onTransfer s e = .next s := by
  unfold onTransfer
  cases hp : s.PH <;> simp_all [Phase.ready]

/-- A micro-operation in its own phase has the effect given. -/
theorem inPhase_eq {s : State} {p : Phase} (e : Result) (h : s.PH = p) : inPhase p s e = e := by
  simp [inPhase, h]

/-- If a micro-operation's guard answers a next state, the phase was its own. -/
theorem inPhase_next {s t : State} {p : Phase} {e : Result} (h : inPhase p s e = .next t) : s.PH = p ∧ e = .next t := by
  unfold inPhase at h
  split at h
  · exact ⟨‹_›, h⟩
  · cases h

/-- A command that needs a message has its effect in RECV. -/
theorem needsMessage_recv {s : State} (e : Result) (h : s.PH = .recv) (ho : s.ps = .open) : needsMessage s e = e := by
  rw [needsMessage, onTransfer_ready _ ⟨.inr (.inl h), fun _ => ho⟩, if_pos h]

/-- Without a message it raises NoOpenMessage. -/
theorem needsMessage_closed {s : State} (e : Result) (h : s.PH = .idle ∨ s.PH = .done) :
    needsMessage s e = .next (raise .noOpenMessage s) := by
  have hr : s.PH ≠ .recv := by rcases h with h | h <;> simp [h]
  rw [needsMessage, onTransfer_ready _ ⟨by tauto, fun h => absurd h hr⟩, if_neg hr]

/-! ## The sequencer's choices -/

/-- The count is at its limit iff it is `2^61 - 1` (10_state.md R26). -/
theorem cnt_eq_max (c : BitVec 61) : c = maxCount ↔ c.toNat = 2 ^ 61 - 1 := by
  constructor
  · rintro rfl; rfl
  · intro h; apply BitVec.eq_of_toNat_eq; rw [h]; rfl

/-- The block is full after the next byte iff `CNT mod 64 = 63`. -/
theorem low6_eq_last (c : BitVec 61) : low6 c = 63#6 ↔ c.toNat % 64 = 63 := by
  rw [← low6_toNat]
  constructor
  · rintro h; rw [h]; rfl
  · intro h; apply BitVec.eq_of_toNat_eq; rw [h]; rfl

/-- The round index is the last iff it is 63. -/
theorem t_eq_last (t : BitVec 6) : t = 63#6 ↔ t.toNat = 63 := by
  constructor
  · rintro rfl; rfl
  · intro h; apply BitVec.eq_of_toNat_eq; rw [h]; rfl

/-- Below 63 the round index counts up (40_word_arithmetic.md R124). -/
theorem t_succ_toNat (t : BitVec 6) (h : t.toNat < 63) : (t + 1#6).toNat = t.toNat + 1 := by
  rw [BitVec.toNat_add]
  simp
  omega

/-- ROUND is followed by ROUND or FEED. -/
theorem roundStep_PH_cases (s : State) : (roundStep s).PH = .feed ∨ (roundStep s).PH = .round := by
  rw [roundStep_PH]
  by_cases h : s.t = 63#6
  · rw [if_pos h]; exact .inl rfl
  · rw [if_neg h]; exact .inr rfl

/-- FEED is followed by the phase of its stage. -/
theorem phaseAfterFeed_cases {ps : Stage} {p : Phase} (h : phaseAfterFeed ps = some p) :
    (ps = .open ∧ p = .recv) ∨ (ps = .trailerDue ∧ p = .pad) ∨ (ps = .last ∧ p = .done) := by
  cases ps <;> cases h <;> simp

/-! ## Fetch -/

/-- The phase codes select the micro-operations of their names and nothing else (30_encoding.md R96). -/
theorem decodePhase_code (p : Phase) :
    decodePhase p.code =
      match p with
      | .pad => some .pad
      | .load => some .load
      | .round => some .round
      | .feed => some .feed
      | _ => none := by
  cases p <;> rfl

/-- In a busy phase the ports are not looked at. -/
theorem fetch_busy {s : State} (h : s.PH.ready = false) : fetch s = decodePhase s.PH.code := by
  unfold fetch
  rw [decodePhase_code]
  cases hp : s.PH <;> simp_all [Phase.ready]

/-- In a ready phase the instruction is the command that is offered, if one is. -/
theorem fetch_ready {s : State} (h : s.PH.ready = true) :
    fetch s = if s.pins.inValid then some (decodeCommand s.pins.inCmd) else none := by
  unfold fetch
  rw [decodePhase_code]
  cases hp : s.PH <;> simp_all [Phase.ready]

/-- A command decodes to one of the four commands. -/
theorem decodeCommand_cases (w : CmdWord) :
    decodeCommand w = .init ∨ decodeCommand w = .data (dataField w) ∨ decodeCommand w = .final ∨ decodeCommand w = .rsv := by
  unfold decodeCommand
  split
  · exact .inl rfl
  · split
    · exact .inr (.inl rfl)
    · split
      · exact .inr (.inr (.inl rfl))
      · exact .inr (.inr (.inr rfl))

/-! ## Steps -/

theorem step_reset {s : State} (h : s.pins.rst = true) : step s = .next (resetEdge s.nextEdge) := by
  simp [step, h]

theorem step_fetched {s : State} {i : Instr} (h : s.pins.rst = false) (hf : fetch s = some i) :
    step s = exec i s.nextEdge := by
  simp [step, h, hf]

theorem step_idle {s : State} (h : s.pins.rst = false) (hf : fetch s = none) : step s = idleEdge s.nextEdge := by
  simp [step, h, hf]

/-- What a transferred command does to `s`, an open message being needed by DATA and FINAL. -/
inductive CommandEffect (s : State) : Instr → State → Prop
  | init (h : s.Ready) : CommandEffect s .init (openMessage s)
  | data (b : Byte) (h : s.PH = .recv) (ho : s.ps = .open) (hc : s.CNT ≠ maxCount) : CommandEffect s (.data b) (appendByte b s)
  | overflow (b : Byte) (h : s.PH = .recv) (ho : s.ps = .open) (hc : s.CNT = maxCount) :
      CommandEffect s (.data b) (raise .lenOverflow s)
  | final (h : s.PH = .recv) (ho : s.ps = .open) : CommandEffect s .final (closeMessage s)
  | noMessageData (b : Byte) (h : s.PH = .idle ∨ s.PH = .done) : CommandEffect s (.data b) (raise .noOpenMessage s)
  | noMessageFinal (h : s.PH = .idle ∨ s.PH = .done) : CommandEffect s .final (raise .noOpenMessage s)
  | rsv (h : s.Ready) : CommandEffect s .rsv (raise .reservedOp s)

/-- What a micro-operation does to `s`. -/
inductive MicroEffect (s : State) : State → Prop
  | padMarker (h : s.PH = .pad) (hs : s.ps = .markerDue) : MicroEffect s (padMarker s)
  | padTrailer (h : s.PH = .pad) (hs : s.ps = .trailerDue) : MicroEffect s (padTrailer s)
  | load (h : s.PH = .load) : MicroEffect s (loadBlock s)
  | round (h : s.PH = .round) : MicroEffect s (roundStep s)
  | feed (p : Phase) (h : s.PH = .feed) (hs : phaseAfterFeed s.ps = some p) : MicroEffect s (feedForward p s)

theorem needsMessage_next {s t : State} {e : Result} (h : needsMessage s e = .next t) :
    (t = s ∧ (s.PH.ready = false ∨ s.PH = .fault)) ∨
    (s.PH = .recv ∧ s.ps = .open ∧ e = .next t) ∨
    ((s.PH = .idle ∨ s.PH = .done) ∧ t = raise .noOpenMessage s) := by
  obtain h | ⟨⟨hp, hs⟩, h⟩ := onTransfer_next h
  · exact .inl h
  · split at h
    · exact .inr (.inl ⟨‹_›, hs ‹_›, h⟩)
    · cases h
      exact .inr (.inr ⟨by tauto, rfl⟩)

/-- If a command's meaning answers a next state, the command was ignored or had one of its effects. -/
theorem exec_command_next {s t : State} (w : CmdWord) (h : exec (decodeCommand w) s = .next t) :
    (t = s ∧ (s.PH.ready = false ∨ s.PH = .fault)) ∨ CommandEffect s (decodeCommand w) t := by
  obtain hw | hw | hw | hw := decodeCommand_cases w <;> rw [hw] at h ⊢
  · obtain h | ⟨hr, h⟩ := onTransfer_next h
    · exact .inl h
    · cases h; exact .inr (.init hr)
  · obtain h | ⟨hp, ho, h⟩ | ⟨hp, rfl⟩ := needsMessage_next h
    · exact .inl h
    · right
      split at h <;> cases h
      · exact .overflow _ hp ho ‹_›
      · exact .data _ hp ho ‹_›
    · exact .inr (.noMessageData _ hp)
  · obtain h | ⟨hp, ho, h⟩ | ⟨hp, rfl⟩ := needsMessage_next h
    · exact .inl h
    · cases h; exact .inr (.final hp ho)
    · exact .inr (.noMessageFinal hp)
  · obtain h | ⟨hr, h⟩ := onTransfer_next h
    · exact .inl h
    · cases h; exact .inr (.rsv hr)

/-- If the micro-operation of the phase answers a next state, it had one of its effects. -/
theorem exec_micro_next {s t : State} {i : Instr} (hi : decodePhase s.PH.code = some i) (h : exec i s = .next t) :
    MicroEffect s t := by
  rw [decodePhase_code] at hi
  cases hp : s.PH <;> rw [hp] at hi <;> cases hi
  · obtain ⟨-, h⟩ := inPhase_next h
    cases hs : s.ps <;> rw [hs] at h <;> cases h
    · exact .padMarker hp hs
    · exact .padTrailer hp hs
  · obtain ⟨-, h⟩ := inPhase_next h
    cases h; exact .load hp
  · obtain ⟨-, h⟩ := inPhase_next h
    cases h; exact .round hp
  · obtain ⟨-, h⟩ := inPhase_next h
    split at h <;> cases h
    exact .feed _ hp ‹_›

/-- The transitions of one step. -/
inductive StepEffect (s : State) : State → Prop
  | reset (h : s.pins.rst = true) : StepEffect s (resetEdge s.nextEdge)
  | micro (h : s.pins.rst = false) (hb : s.PH.ready = false) {t : State} (e : MicroEffect s.nextEdge t) : StepEffect s t
  | quiet (h : s.pins.rst = false) (hr : s.PH.ready = true) (hv : s.pins.inValid = false)
      (ho : s.PH = .recv → s.ps = .open) : StepEffect s s.nextEdge
  | discarded (h : s.pins.rst = false) (hp : s.PH = .fault) (hv : s.pins.inValid = true) : StepEffect s s.nextEdge
  | command (h : s.pins.rst = false) (hr : s.PH.ready = true) (hv : s.pins.inValid = true) {t : State}
      (e : CommandEffect s.nextEdge (decodeCommand s.pins.inCmd) t) : StepEffect s t

/-- The inversion of a step. -/
theorem step_cases {s t : State} (h : step s = .next t) : StepEffect s t := by
  cases hr : s.pins.rst
  · cases hb : s.PH.ready
    · have hf := fetch_busy hb
      have : ∃ i, decodePhase s.PH.code = some i := by
        rw [decodePhase_code]; cases hp : s.PH <;> simp_all [Phase.ready]
      obtain ⟨i, hi⟩ := this
      rw [step_fetched hr (hf.trans hi)] at h
      exact .micro hr hb (exec_micro_next (s := s.nextEdge) hi h)
    · have hf := fetch_ready hb
      cases hv : s.pins.inValid
      · rw [hv] at hf
        rw [step_idle hr hf, idleEdge] at h
        split at h <;> cases h
        rename_i hq
        refine .quiet hr hb hv fun hp => ?_
        simpa [recvBroken, hp] using hq
      · rw [hv] at hf
        rw [step_fetched hr hf] at h
        obtain ⟨rfl, hp⟩ | e := exec_command_next _ h
        · refine .discarded hr ?_ hv
          simpa [hb] using hp
        · exact .command hr hb hv e
  · rw [step_reset hr] at h
    cases h
    exact .reset hr

/-- A command in a busy phase or in FAULT changes nothing. -/
theorem exec_command_ignored {s : State} (w : CmdWord) (h : s.PH.ready = false ∨ s.PH = .fault) :
    exec (decodeCommand w) s = .next s := by
  obtain e | e | e | e := decodeCommand_cases w <;> rw [e] <;> exact onTransfer_ignored _ h

/-- An edge in a ready phase without a transfer uses up its inputs and changes nothing else. -/
theorem step_quiet {s : State} (hp : s.PH.ready = true) (ho : s.PH = .recv → s.ps = .open) (hr : s.pins.rst = false)
    (hv : s.pins.inValid = false) : step s = .next s.nextEdge := by
  rw [step_idle hr (by rw [fetch_ready hp, hv]; rfl), idleEdge, if_neg]
  simp [recvBroken]
  exact ho

/-- So does any edge in FAULT but a reset. -/
theorem step_in_fault {s : State} (hp : s.PH = .fault) (hr : s.pins.rst = false) : step s = .next s.nextEdge := by
  have hb : s.PH.ready = true := by rw [hp]; rfl
  cases hv : s.pins.inValid
  · exact step_quiet hb (by simp [hp]) hr hv
  · rw [step_fetched hr (by rw [fetch_ready hb, hv]; rfl)]
    exact exec_command_ignored _ (.inr hp)

/-- An edge that transfers a command runs it. -/
theorem step_transferred {s : State} {i : Instr} (h : s.transferred = some i) : step s = exec i s.nextEdge := by
  unfold State.transferred State.inReady at h
  split at h
  · rename_i hc
    simp only [Bool.and_eq_true, Bool.not_eq_true'] at hc
    cases h
    exact step_fetched hc.1.1 (by rw [fetch_ready hc.2, hc.1.2]; rfl)
  · cases h

/-! ## Runs -/

/-- The coming edge is not a reset. -/
theorem NoReset.head {k : Nat} {s : State} (h : NoReset (k + 1) s) : s.pins.rst = false := by
  cases hi : s.inputs with
  | nil => simp [State.pins, hi, quietPins]
  | cons p r =>
    simp only [State.pins, hi, List.headD_cons]
    exact h p (by simp [hi])

/-- Nor are the ones after it. -/
theorem NoReset.tail {k : Nat} {s t : State} (h : NoReset (k + 1) s) (ht : t.inputs = s.inputs.tail) : NoReset k t := by
  intro p hp
  apply h p
  rw [ht] at hp
  cases hi : s.inputs with
  | nil => simp [hi] at hp
  | cons a r =>
    simp only [hi, List.tail_cons] at hp
    simp [hp]

theorem run_succ {s t : State} (k : Nat) (h : step s = .next t) : run (k + 1) s = run k t := by
  simp [run, h]

/-- A run of `j + k` steps is a run of `j` and then one of `k`. -/
theorem run_add (j k : Nat) {s t : State} (h : run j s = .next t) : run (j + k) s = run k t := by
  induction j generalizing s with
  | zero => cases h; rw [Nat.zero_add]
  | succ j ih =>
    rw [run] at h
    rw [Nat.succ_add, run]
    split at h
    · rename_i u hu
      exact ih h
    · cases h
    · cases h

/-- Each step uses up one edge's inputs. -/
theorem step_inputs {s t : State} (h : step s = .next t) : t.inputs = s.inputs.tail := by
  cases step_cases h with
  | reset => rfl
  | micro _ _ e => cases e <;> simp
  | quiet => rfl
  | discarded => rfl
  | command _ _ _ e =>
    generalize decodeCommand s.pins.inCmd = i at e
    cases e <;> simp

end Sys2Proof.Machine
end

