-- ==== Sys2Proof/Laws/Stream.lean ====
section
/-! SUPPORT. Which lines of a command stream take no step. -/

namespace Sys2Proof.Machine

@[simp] theorem skipEmpty_nil : skipEmpty [] = [] := rfl

@[simp] theorem skipEmpty_idle_zero (rest : List StreamLine) : skipEmpty (.idle 0 :: rest) = skipEmpty rest := rfl

/-- Every other line takes a step, so it stays. -/
theorem skipEmpty_cons {line : StreamLine} (h : line ≠ .idle 0) (rest : List StreamLine) :
    skipEmpty (line :: rest) = line :: rest := by
  cases line with
  | idle n =>
    cases n with
    | zero => exact absurd rfl h
    | succ n => rfl
  | init => rfl
  | data b => rfl
  | final => rfl
  | rsv => rfl
  | reset => rfl
  | wait => rfl

end Sys2Proof.Machine
end

