-- ==== Sys2Proof/Tests/Slice0.lean ====
section
/-! SUPPORT. Tests on fixed values, each from the spec's own examples, and for every statement with hypotheses a witness that
meets them. -/

namespace Sys2Proof.Tests

open Sys2Proof.Machine

/-- A state in a phase, a stage and a count, everything else as after reset. -/
def at' (p : Phase) (q : Stage) (c : Nat) : State :=
  { State.reset with PH := p, ps := q, CNT := BitVec.ofNat 61 c }

/-- The same with the commands `ws` offered at the coming edges. -/
def offered (p : Phase) (q : Stage) (c : Nat) (ws : List CmdWord) : State :=
  { at' p q c with inputs := ws.map offering }

/-! ## WellFormed: an ill-formed encoding for each check -/

theorem test_wf_refuses_command_of_eleven_bits :
    (⟨.cw10, 0x400⟩ : RawWord).fits = false ∧ (⟨.cw10, 0x400⟩ : RawWord).wf = false ∧
    decode ⟨.cw10, 0x400⟩ = .error .commandTooWide := by decide

theorem test_wf_refuses_phase_of_four_bits :
    (⟨.ph3, 8⟩ : RawWord).fits = false ∧ (⟨.ph3, 8⟩ : RawWord).wf = false ∧
    decode ⟨.ph3, 8⟩ = .error .phaseTooWide := by decide

theorem test_wf_refuses_ready_phases :
    (⟨.ph3, 0⟩ : RawWord).selectsRow = false ∧ (⟨.ph3, 1⟩ : RawWord).wf = false ∧ (⟨.ph3, 6⟩ : RawWord).wf = false ∧
    (⟨.ph3, 7⟩ : RawWord).wf = false ∧ decode ⟨.ph3, 7⟩ = .error .phaseNotBusy := by decide

theorem test_wf_accepts_the_edges :
    (⟨.cw10, 0x3FF⟩ : RawWord).wf = true ∧ (⟨.ph3, 2⟩ : RawWord).wf = true ∧ (⟨.ph3, 5⟩ : RawWord).wf = true := by decide

/-! ## Decoding: words written out from 30_encoding.md R91, R92, R96 -/

theorem test_decode_init : decodeTableWord 16 0b00_0000_0000 = some .init := by decide
theorem test_decode_data : decodeTableWord 16 0b01_0110_0001 = some (.data 0x61#8) := by decide
theorem test_decode_final : decodeTableWord 16 0b10_0000_0000 = some .final := by decide
theorem test_decode_rsv : decodeTableWord 16 0b11_1111_1111 = some .rsv := by decide
theorem test_decode_pad : decodeTableWord 8 0b010 = some .pad := by decide
theorem test_decode_load : decodeTableWord 8 0b011 = some .load := by decide
theorem test_decode_round : decodeTableWord 8 0b100 = some .round := by decide
theorem test_decode_feed : decodeTableWord 8 0b101 = some .feed := by decide
theorem test_decode_refuses : decodeTableWord 8 0b110 = none ∧ decodeTableWord 24 0 = none := by decide

/-! ## Word functions: 95_test_vectors.md section 2.1 -/

theorem test_small_sigmas :
    smallSigma0 0x12345678#32 = 0xe7fce6ee#32 ∧ smallSigma1 0x12345678#32 = 0xa1f78649#32 := by decide

theorem test_capital_sigmas :
    bigSigma0 0x12345678#32 = 0x66146474#32 ∧ bigSigma1 0x12345678#32 = 0x3561abda#32 := by decide

theorem test_choose_operand_order :
    choose 0xffff0000#32 0x12345678#32 0x9abcdef0#32 = 0x1234def0#32 ∧
    choose 0xffff0000#32 0x9abcdef0#32 0x12345678#32 = 0x9abc5678#32 := by decide

theorem test_majority : majority 0xaaaaaaaa#32 0xcccccccc#32 0xf0f0f0f0#32 = 0xe8e8e8e8#32 := by decide

theorem test_add_wraps : add32 0x5be0cd19#32 0x961f4894#32 = 0xf20015ad#32 := by decide

theorem test_packing :
    be32 0x61#8 0x62#8 0x63#8 0x80#8 = 0x61626380#32 ∧ bytes32 0xba7816bf#32 = #v[0xba#8, 0x78#8, 0x16#8, 0xbf#8] ∧
    bytes64 448#64 = #v[0#8, 0#8, 0#8, 0#8, 0#8, 0#8, 0x01#8, 0xc0#8] := by decide

theorem test_rom_corners : K[0] = 0x428a2f98#32 ∧ K[17] = 0xefbe4786#32 ∧ K[63] = 0xc67178f2#32 := by decide

/-- R197: digits `0` to `9`, then `a` to `f`. -/
theorem test_hex_digits :
    hexDigit 0#4 = '0' ∧ hexDigit 9#4 = '9' ∧ hexDigit 10#4 = 'a' ∧ hexDigit 12#4 = 'c' ∧ hexDigit 15#4 = 'f' := by decide

/-! ## One step of each instruction -/

/-- What a test looks at in an outcome. -/
def view {α : Type} (f : State → α) : Result → Option α
  | .next s => some (f s)
  | .fault _ => none
  | .refused _ => none

/-- R211's example. -/
theorem test_init_from_done :
    view (fun t => (t.PH, t.CNT, t.ps, t.H[0])) (step (offered .done .last 3 [0x0FF]))
      = some (.recv, 0#61, .open, 0x6a09e667#32) := by decide +kernel

/-- R212's example: in RECV with `CNT = 2`, DATA 'c'. -/
theorem test_data_third_byte :
    view (fun t => (t.PH, t.CNT, t.BUF[2])) (step (offered .recv .open 2 [0x163])) = some (.recv, 3#61, 0x63#8) := by
  decide +kernel

/-- R212: the 64th byte starts LOAD. -/
theorem test_data_fills_the_block :
    view (fun t => (t.PH, t.CNT, t.BUF[63])) (step (offered .recv .open 63 [0x180])) = some (.load, 64#61, 0x80#8) := by
  decide +kernel

/-- R213's example. -/
theorem test_final : view (fun t => (t.PH, t.ps)) (step (offered .recv .open 3 [0x200])) = some (.pad, .markerDue) := by
  decide +kernel

/-- R214's example. -/
theorem test_rsv : view (fun t => (t.PH, t.FC, t.CNT)) (step (offered .recv .open 3 [0x300]))
    = some (.fault, .reservedOp, 3#61) := by decide +kernel

/-- R146's example: `CNT = 3`. -/
theorem test_pad_abc :
    view (fun t => (t.PH, t.ps, t.BUF[3], t.BUF[55], t.BUF[63])) (step (at' .pad .markerDue 3))
      = some (.load, .last, 0x80#8, 0#8, 0x18#8) := by decide +kernel

/-- 95_test_vectors.md section 2.2, 56 bytes: marker at 56, then a block with the trailer alone. -/
theorem test_pad_two_blocks :
    view (fun t => (t.ps, t.BUF[56], t.BUF[63])) (step (at' .pad .markerDue 56)) = some (.trailerDue, 0x80#8, 0#8) ∧
    view (fun t => (t.ps, t.BUF[56], t.BUF[62], t.BUF[63])) (step (at' .pad .trailerDue 56))
      = some (.last, 0#8, 0x01#8, 0xc0#8) := by decide +kernel

/-- R161's example: the block of `pad("abc")`. -/
def abcBlock : Block :=
  Vector.ofFn fun i =>
    if i.val = 0 then 0x61#8 else if i.val = 1 then 0x62#8 else if i.val = 2 then 0x63#8
    else if i.val = 3 then 0x80#8 else if i.val = 63 then 0x18#8 else 0#8

theorem test_load_abc :
    view (fun t => (t.PH, t.WIN[0], t.WIN[1], t.WIN[15], t.V[7]))
      (step { at' .load .last 3 with BUF := abcBlock, H := IV, t := 63#6 })
      = some (.round, 0x61626380#32, 0#32, 0x18#32, 0x5be0cd19#32) := by decide +kernel

/-- R177's example: round 0 of the "abc" block. -/
theorem test_round_abc :
    view (fun t => (t.V, t.WIN[14], t.WIN[15], t.t))
      (step { at' .round .last 3 with V := IV, WIN := loadWindow abcBlock })
      = some (#v[0x5d6aebcd#32, 0x6a09e667#32, 0xbb67ae85#32, 0x3c6ef372#32, 0xfa2a4622#32, 0x510e527f#32, 0x9b05688c#32,
          0x1f83d9ab#32], 0x18#32, 0x61626380#32, 1#6) := by decide +kernel

/-- R178's example: lanes 0 and 7 of the "abc" feed-forward; the digest shows. -/
theorem test_feed_abc :
    view (fun t => (t.PH, t.H[0], t.H[7], t.digestValid))
      (step { at' .feed .last 3 with
        H := IV
        V := #v[0x506e3058, 0xd39a2165, 0x04d24d6c, 0xb85e2ce9, 0x5ef50f24, 0xfb121210, 0x948d25b6, 0x961f4894] })
      = some (.done, 0xba7816bf#32, 0xf20015ad#32, true) := by decide +kernel

/-- R243: a byte with no message open; R218: the first fault's code stays. -/
theorem test_faults :
    view (fun t => (t.PH, t.FC)) (step (offered .idle .open 0 [0x141])) = some (.fault, .noOpenMessage) ∧
    view (fun t => (t.PH, t.FC)) (step { offered .fault .open 0 [0x300] with FC := .noOpenMessage })
      = some (.fault, .noOpenMessage) := by decide +kernel

/-- R97: `IDLE 0` takes no step even where the stream ends with it; each step shows in the inputs it leaves. -/
theorem test_idle_zero_takes_no_step :
    view State.inputs (playLines 5 [.idle 0] (offered .recv .open 3 [0x163])) = some [offering 0x163] ∧
    view State.inputs (playLines 5 [.idle 1, .idle 0] (offered .recv .open 3 [0x163, 0x164])) = some [] := by
  decide +kernel

/-- R270: `rst` wins over the command and over the phase. -/
theorem test_reset_edge :
    view (fun t => (t.PH, t.CNT, t.t, t.ps, t.FC))
      (step { at' .round .last 77 with inputs := [⟨true, true, 0x300⟩], t := 40#6 })
      = some (.idle, 0#61, 0#6, .open, .clear) := by decide +kernel

/-! ## Witnesses: every statement with hypotheses has a state and operands that meet them -/

theorem test_witness_command_map : opField 0x161#10 = 0b01#2 := by decide

theorem test_witness_decode_of_encode : (Instr.data 0xFF#8).wf = true ∧ Instr.feed.wf = true := by decide

theorem test_witness_encode_of_decode :
    decode ⟨.cw10, 0x2C3⟩ = .ok .final ∧ decode ⟨.cw10, 0x1FF⟩ = .ok (.data 0xFF#8) ∧ decode ⟨.ph3, 5⟩ = .ok .feed := by decide

theorem test_witness_step_runs :
    (State.pins { at' .pad .open 0 with inputs := [⟨true, false, 0⟩] }).rst = true ∧
    (State.reset.pins.rst = false ∧ State.reset.PH.ready = true ∧ State.reset.pins.inValid = false) ∧
    decodePhase (at' .feed .last 0).PH.code = some .feed ∧
    ((offered .recv .open 0 [0x2AA]).pins.inValid = true ∧ (offered .recv .open 0 [0x2AA]).PH.ready = true) := by decide

theorem test_witness_placed : Instr.init.isCommand = true ∧ Instr.feed.isCommand = false := by decide

/-- The order of tests: a state for each arm, RECV with `ps = 0` among them. -/
theorem test_witness_step_order :
    ((offered .recv .open (2 ^ 61 - 1) [0x1FF]).PH = .recv → (offered .recv .open (2 ^ 61 - 1) [0x1FF]).ps = .open) ∧
    (offered .recv .open (2 ^ 61 - 1) [0x1FF]).CNT = BitVec.allOnes 61 ∧
    opField (offered .recv .open 0 [0x1FF]).pins.inCmd = 0b01#2 ∧
    ((at' .round .last 0).PH = .recv → (at' .round .last 0).ps = .open) := by decide

theorem test_witness_ready :
    (at' .idle .open 0).Ready ∧ (at' .recv .open 64).Ready ∧ (at' .done .last 3).Ready := by
  unfold State.Ready; decide

theorem test_witness_not_ready :
    ((at' .fault .last 0).PH = .fault ∨ (at' .fault .last 0).PH.ready = false) ∧
    ((at' .feed .open 0).PH = .fault ∨ (at' .feed .open 0).PH.ready = false) := by decide

/-- DATA at the boundaries of its clauses: index 0, index 63, and the last byte that is legal. -/
theorem test_witness_data :
    ((at' .recv .open 64).PH = .recv ∧ (at' .recv .open 64).ps = .open ∧ (at' .recv .open 64).CNT.toNat < 2 ^ 61 - 1) ∧
    ((at' .recv .open 63).CNT.toNat % 64 = 63) ∧
    (at' .recv .open (2 ^ 61 - 2)).CNT.toNat < 2 ^ 61 - 1 := by decide

theorem test_witness_data_at_limit :
    (at' .recv .open (2 ^ 61 - 1)).PH = .recv ∧ (at' .recv .open (2 ^ 61 - 1)).ps = .open ∧
    (at' .recv .open (2 ^ 61 - 1)).CNT.toNat = 2 ^ 61 - 1 := by decide

theorem test_witness_no_message :
    ((at' .idle .open 0).PH = .idle ∨ (at' .idle .open 0).PH = .done) ∧
    exec .final (at' .done .last 3) = .next (raise .noOpenMessage (at' .done .last 3)) ∧
    exec (.data 0x41#8) (at' .idle .open 0) = .next (raise .noOpenMessage (at' .idle .open 0)) := ⟨by decide, rfl, rfl⟩

theorem test_witness_reserved : (at' .fault .open 0).PH = .fault ∧ 0x300#10 ≤ 0x3A5#10 := by decide

theorem test_witness_busy_port :
    (at' .load .last 0).inReady = false ∧ quietPins.rst = false ∧ (offering 0x000).rst = false ∧
    (offered .idle .open 0 [0x0AA]).transferred = some .init := by decide

theorem test_witness_waiting :
    (at' .recv .open 3).PH.ready = true ∧ ((at' .recv .open 3).PH = .recv → (at' .recv .open 3).ps = .open) ∧
    ∀ p ∈ ({ at' .recv .open 3 with inputs := [quietPins, ⟨false, false, 0x355⟩] } : State).inputs.take 2,
      p.rst = false ∧ p.inValid = false := by decide

theorem test_witness_fault_state :
    (at' .fault .open 0).PH = .fault ∧ (at' .fault .open 0).pins.rst = false ∧
    ({ at' .fault .open 0 with inputs := [⟨true, false, 0⟩] } : State).pins.rst = true := by decide

theorem test_witness_no_reset : NoReset 2 (offered .fault .open 0 [0x000, 0x300]) := by
  unfold NoReset; decide

/-- A step that enters FAULT, for each of the three causes. -/
theorem test_witness_fault_entry :
    step (offered .recv .open 3 [0x300]) = .next (raise .reservedOp (offered .recv .open 3 [0x300]).nextEdge) ∧
    step (offered .done .last 3 [0x200]) = .next (raise .noOpenMessage (offered .done .last 3 [0x200]).nextEdge) ∧
    step (offered .recv .open (2 ^ 61 - 1) [0x141])
      = .next (raise .lenOverflow (offered .recv .open (2 ^ 61 - 1) [0x141]).nextEdge) := ⟨rfl, rfl, rfl⟩

theorem test_witness_unreachable :
    ((at' .pad .open 0).PH = .pad ∧ (at' .pad .last 0).ps = .last) ∧
    ((at' .feed .markerDue 0).PH = .feed ∧ (at' .feed .markerDue 0).ps = .markerDue) ∧
    ((at' .recv .last 0).PH = .recv ∧ (at' .recv .last 0).ps ≠ .open ∧ (at' .recv .last 0).pins.rst = false) ∧
    (at' .idle .open 0).PH ≠ .pad ∧ (at' .pad .open 0).PH ≠ .load ∧ (at' .pad .open 0).PH ≠ .round ∧
    (at' .pad .open 0).PH ≠ .feed := by decide

/-- PAD at the boundaries of its clauses: `CNT mod 64` 0, 55, 56 and 63 with the marker due, and the trailer due. -/
theorem test_witness_pad :
    (at' .pad .markerDue 0).PH = .pad ∧ (at' .pad .markerDue 55).CNT.toNat % 64 ≤ 55 ∧
    56 ≤ (at' .pad .markerDue 56).CNT.toNat % 64 ∧ (at' .pad .markerDue 63).CNT.toNat % 64 = 63 ∧
    (at' .pad .markerDue 63).ps = .markerDue ∧ (at' .pad .trailerDue 56).ps = .trailerDue := by decide

theorem test_witness_load : (at' .load .open 64).PH = .load := by decide

theorem test_witness_round :
    (at' .round .last 3).PH = .round ∧ ({ at' .round .last 3 with t := 63#6 } : State).t.toNat = 63 ∧
    ({ at' .round .last 3 with t := 62#6 } : State).t.toNat < 63 := by decide

theorem test_witness_feed :
    (at' .feed .open 64).ps ≠ .markerDue ∧ (at' .feed .trailerDue 56).ps = .trailerDue ∧ (at' .feed .last 3).ps = .last ∧
    (at' .feed .markerDue 0).ps = .markerDue ∧ (at' .feed .open 64).PH = .feed := by decide

theorem test_witness_reset_edge : ({ at' .round .last 3 with inputs := [⟨true, true, 0x000⟩] } : State).pins.rst = true := by
  decide

theorem test_witness_outputs : (at' .done .last 3).PH = .done ∧ (at' .recv .open 3).PH ≠ .done := by decide

/-- The invariant holds somewhere in every phase. -/
theorem test_witness_invariant :
    (at' .recv .open 3).Inv ∧ (at' .pad .markerDue 0).Inv ∧ (at' .pad .trailerDue 56).Inv ∧ (at' .load .open 64).Inv ∧
    (at' .round .last 3).Inv ∧ (at' .feed .trailerDue 63).Inv ∧ (at' .done .last 3).Inv :=
  ⟨by decide, by decide, by decide, by decide, by decide, by decide, by decide⟩

theorem test_witness_invariant_fault : (raise .lenOverflow (at' .recv .open (2 ^ 61 - 1))).Inv := by decide

theorem test_witness_invariant_step : State.reset.Inv ∧ step State.reset = .next State.reset.nextEdge :=
  ⟨by decide, rfl⟩

/-- A step in each phase, so each row of the transition table has a next state. -/
theorem test_witness_steps :
    step (offered .idle .open 0 [0x000]) = .next (openMessage (offered .idle .open 0 [0x000]).nextEdge) ∧
    step (offered .recv .open 63 [0x141]) = .next (appendByte 0x41#8 (offered .recv .open 63 [0x141]).nextEdge) ∧
    step (at' .feed .trailerDue 56) = .next (feedForward .pad (at' .feed .trailerDue 56).nextEdge) ∧
    (offered .recv .open 63 [0x141]).pins.rst = false := ⟨rfl, rfl, rfl, rfl⟩

/-- Two states in RECV that differ in every unspecified register, and in the bytes past the message. -/
theorem test_witness_same_specified :
    SameSpecified (at' .recv .open 1)
      { at' .recv .open 1 with V := IV, WIN := Vector.replicate 16 7, t := 5#6, BUF := Vector.ofFn fun i => BitVec.ofNat 8 i.val } where
  inputs := rfl
  PH := rfl
  ps := rfl
  CNT := rfl
  FC := rfl
  H := fun _ _ => rfl
  V := by decide
  WIN := by decide
  t := by decide
  message := by decide +kernel
  block := by decide

/-- Two states that differ in the message bytes: those in the block, and the one offered. -/
theorem test_witness_same_control :
    SameControl (offered .recv .open 3 [0x141]) { offered .recv .open 3 [0x1FF] with BUF := Vector.replicate 64 9 } where
  inputs := .cons ⟨rfl, rfl, by decide⟩ .nil
  PH := rfl
  ps := rfl
  CNT := rfl
  FC := rfl
  t := rfl

theorem test_witness_busy_ends :
    (at' .pad .markerDue 56).Inv ∧ (at' .pad .markerDue 56).inReady = false ∧ NoReset 134 (at' .pad .markerDue 56) :=
  ⟨by decide +kernel, rfl, fun _ h => absurd h List.not_mem_nil⟩

theorem test_witness_block :
    (at' .load .open 64).PH = .load ∧ (at' .load .open 64).ps = .open ∧ (at' .load .trailerDue 56).ps ≠ .markerDue ∧
    (at' .load .last 3).ps = .last ∧ NoReset 66 (at' .load .open 64) :=
  ⟨rfl, rfl, by decide, rfl, fun _ h => absurd h List.not_mem_nil⟩

theorem test_witness_window : (at' .load .last 3).PH = .load ∧ 63 ≤ 63 ∧ NoReset 64 (at' .load .last 3) :=
  ⟨rfl, Nat.le_refl 63, fun _ h => absurd h List.not_mem_nil⟩

theorem test_witness_zero_count : (55 + 1 + 0) % 64 = 56 ∧ 55 % 64 = 55 ∧ 120 % 64 = 56 ∧ 128 % 64 = 0 := by decide

theorem test_witness_pad_length :
    (List.replicate (2 ^ 61 - 1) (0#8)).length ≤ 2 ^ 61 - 1 ∧ (List.replicate 55 (0#8)).length % 64 = 55 ∧
    (List.replicate 56 (0#8)).length % 64 = 56 := by simp only [List.length_replicate]; decide

theorem test_witness_pad_blocks :
    2 ^ 61 ≤ (List.replicate (2 ^ 61) (0#8)).length ∧ (∃ p : List Byte, Machine.pad [] = some p) ∧
    55 % 64 ≤ 55 ∧ 56 ≤ 63 % 64 := ⟨by simp only [List.length_replicate]; decide, ⟨_, rfl⟩, by decide, by decide⟩

/-- A message of one byte, open after two steps. -/
theorem test_witness_open_message :
    (offered .idle .open 0 [0x000, 0x161]).Ready ∧ NoReset 2 (offered .idle .open 0 [0x000, 0x161]) ∧
    transfers 2 (offered .idle .open 0 [0x000, 0x161]) = .init :: [0x61#8].map .data ∧
    view State.PH (run 2 (offered .idle .open 0 [0x000, 0x161])) = some .recv :=
  ⟨⟨.inl rfl, fun _ => rfl⟩, by unfold NoReset; decide, by decide +kernel, by decide +kernel⟩

/-- Three steps past DONE, with nothing more transferred (R199 d). -/
theorem test_witness_digest_stays :
    transfers (2 + tailSteps 0 + 3) (offered .idle .open 0 [0x000, 0x200]) = bracket [] := by decide +kernel

/-- The empty message's bracket, transferred in two steps and no sooner. -/
theorem test_witness_bracket :
    (offered .idle .open 0 [0x000, 0x200]).Ready ∧ NoReset (2 + tailSteps 0) (offered .idle .open 0 [0x000, 0x200]) ∧
    transfers 2 (offered .idle .open 0 [0x000, 0x200]) = bracket [] ∧
    ∀ j : Nat, j < 2 → transfers j (offered .idle .open 0 [0x000, 0x200]) ≠ bracket [] :=
  ⟨⟨.inl rfl, fun _ => rfl⟩, by unfold NoReset; decide, by decide +kernel, by decide +kernel⟩

theorem test_witness_digest_held :
    (at' .done .last 3).PH = .done ∧ NoReset 2 (at' .done .last 3) ∧ transfers 2 (at' .done .last 3) = [] ∧
    (offered .done .last 3 [0x000]).transferred ≠ none ∧
    step (offered .done .last 3 [0x000]) = .next (openMessage (offered .done .last 3 [0x000]).nextEdge) :=
  ⟨rfl, fun _ h => absurd h List.not_mem_nil, by decide +kernel, by decide, rfl⟩

theorem test_witness_rotate : 1 ≤ 31 ∧ 31 ≤ 31 ∧ 31 < 32 ∧ 10 + 21 ≤ 31 := by decide

theorem test_witness_block_access : 56 + 8 ≤ 64 ∧ 63 + 1 ≤ 64 ∧ (7 : Nat) < 8 ∧ 56 + 7 < 64 ∧ (55 : Nat) < 56 := by decide

theorem test_witness_lines : (StreamLine.data 0x63#8 = .data 0x63#8) ∧ 0x163#10 = 0x100#10 + (0x63#8).setWidth 10 := by decide

end Sys2Proof.Tests
end

section
/-! PROOFS of 30_encoding.md: the opcode map, the ignored data bits, and the selection of a micro-operation by the phase. -/

namespace Sys2Proof

/-! ## The two fields of a command word -/

/-- The data field is the low byte (R91). -/
theorem dataField_eq_setWidth (w : CmdWord) : dataField w = w.setWidth 8 :=
  (BitVec.setWidth_eq_extractLsb' (by decide)).symm

/-- The mask of R92's rows keeps the opcode and clears the data. -/
theorem and_opMask (w : CmdWord) : w &&& 0x300#10 = commandWord (opField w) 0#8 :=
  calc w &&& 0x300#10 = commandWord (opField w) (dataField w) &&& commandWord 0b11#2 0#8 := by
        rw [commandWord_fields]; rfl
    _ = commandWord (opField w &&& 0b11#2) (dataField w &&& 0#8) := BitVec.and_append
    _ = commandWord (opField w) 0#8 := by
        rw [BitVec.and_zero, show (0b11#2) = BitVec.allOnes 2 from rfl, BitVec.and_allOnes]

theorem commandWord_zero_inj {op op' : BitVec 2} : commandWord op 0#8 = commandWord op' 0#8 ↔ op = op' :=
  BitVec.append_left_inj 0#8

theorem op_cases (op : BitVec 2) : op = 0b00#2 ∨ op = 0b01#2 ∨ op = 0b10#2 ∨ op = 0b11#2 := by
  revert op
  decide

/-! ## The decoder, one equation per opcode (R92) -/

theorem decodeCommand_of_op_init {w : CmdWord} (h : opField w = 0b00#2) : decodeCommand w = .init := by
  simp [decodeCommand, h]

theorem decodeCommand_of_op_data {w : CmdWord} (h : opField w = 0b01#2) : decodeCommand w = .data (dataField w) := by
  simp [decodeCommand, h]

theorem decodeCommand_of_op_final {w : CmdWord} (h : opField w = 0b10#2) : decodeCommand w = .final := by
  simp [decodeCommand, h]

theorem decodeCommand_of_op_rsv {w : CmdWord} (h : opField w = 0b11#2) : decodeCommand w = .rsv := by
  simp [decodeCommand, h]

/-! ## The opcode map -/

/-- Every row of R92 masks the opcode and has zero data bits in its value. -/
theorem commandRow_shape {r : CommandRow} (h : r ∈ commandRows) :
    r.mask = 0x300#10 ∧ r.value = commandWord (opField r.value) 0#8 := by
  revert r
  decide

/-- A row of R92 selects exactly the words that have its opcode. -/
theorem commandRow_selects {r : CommandRow} (h : r ∈ commandRows) (w : CmdWord) :
    r.selects w = decide (opField w = opField r.value) := by
  obtain ⟨hmask, hvalue⟩ := commandRow_shape h
  have hiff : w &&& r.mask = r.value ↔ opField w = opField r.value := by
    rw [hmask, and_opMask, hvalue, commandWord_zero_inj, opField_commandWord]
  rw [CommandRow.selects, beq_eq_decide, decide_eq_decide]
  exact hiff

/-- The one row that selects a word is the row of the instruction the word decodes to. -/
theorem selected_mnemonics (w : CmdWord) :
    (commandRows.filter fun r => r.selects w).map CommandRow.mnemonic = [(decodeCommand w).mnemonic] := by
  rw [List.filter_congr fun r hr => commandRow_selects hr w]
  obtain h | h | h | h := op_cases (opField w)
  · rw [decodeCommand_of_op_init h, h]; rfl
  · rw [decodeCommand_of_op_data h, h]; rfl
  · rw [decodeCommand_of_op_final h, h]; rfl
  · rw [decodeCommand_of_op_rsv h, h]; rfl

/-- Settles O1: a row selects a word by its opcode alone, and the four rows have the four opcodes. -/
theorem commandMapIsComplete : Obligations.CommandMapIsComplete := by
  intro w
  exact ⟨selected_mnemonics w, fun h => by rw [decodeCommand_of_op_data h, dataField_eq_setWidth]⟩

/-- Settles O2: the opcode of a word made of two fields does not depend on the data. -/
theorem ignoredDataBitsChangeNothing : Obligations.IgnoredDataBitsChangeNothing := by
  refine ⟨fun d => ⟨?_, ?_, ?_⟩, rfl, rfl⟩
  · exact decodeCommand_of_op_init (opField_commandWord _ d)
  · exact decodeCommand_of_op_final (opField_commandWord _ d)
  · exact decodeCommand_of_op_rsv (opField_commandWord _ d)

/-! ## Commands and micro-operations -/

/-- No command word is a micro-operation (R96). -/
theorem isCommand_decodeCommand (w : CmdWord) : (decodeCommand w).isCommand = true := by
  obtain h | h | h | h := Machine.decodeCommand_cases w
  all_goals rw [h]; rfl

/-- The instructions that are not commands are the four micro-operations (R96). -/
theorem isCommand_eq_false_iff (i : Instr) :
    i.isCommand = false ↔ i = .pad ∨ i = .load ∨ i = .round ∨ i = .feed := by
  cases i <;> simp [Instr.isCommand, encode]

/-- Settles O3: a command word decodes to one of the four commands only; the phase code's table is the decoder's own. -/
theorem microOpsAreSelectedByPhaseAlone : Obligations.MicroOpsAreSelectedByPhaseAlone :=
  ⟨isCommand_decodeCommand, fun _ => rfl, isCommand_eq_false_iff, rfl, rfl, rfl, rfl⟩

end Sys2Proof
end

section
/-! PROOFS of 40_word_arithmetic.md: addition, rotation and shift, the six logic functions, and the byte packings. -/

namespace Sys2Proof.Machine

/-! ## Addition (R111) -/

/-- The sum as a number loses its carry (R111). -/
theorem add32_toNat (x y : Word) : (add32 x y).toNat = (x.toNat + y.toNat) % 2 ^ 32 :=
  BitVec.toNat_add x y

/-! ## Rotation and shift (R113, R114) -/

/-- A rotation reads bit `i + n`, counted around the word: the bits that leave at bit 0 re-enter at bit 31 (R113). -/
theorem rotr_getLsbD (x : Word) (n : Nat) {i : Nat} (hi : i < 32) :
    (rotr x n).getLsbD i = x.getLsbD ((i + n) % 32) := by
  rw [rotr, BitVec.getLsbD_rotateRight]
  by_cases h : i < 32 - n % 32
  · rw [decide_eq_true h, cond_true, show n % 32 + i = (i + n) % 32 by omega]
  · rw [decide_eq_false h, cond_false, decide_eq_true hi, Bool.true_and,
      show i - (32 - n % 32) = (i + n) % 32 by omega]

/-- A shift reads bit `i + n`, and zeros enter at the top (R114). -/
theorem shr_getLsbD (x : Word) (n i : Nat) :
    (shr x n).getLsbD i = (decide (i + n < 32) && x.getLsbD (i + n)) := by
  rw [shr, BitVec.getLsbD_ushiftRight, Nat.add_comm n i]
  by_cases h : i + n < 32
  · rw [decide_eq_true h, Bool.true_and]
  · rw [decide_eq_false h, Bool.false_and, BitVec.getLsbD_of_ge _ _ (Nat.le_of_not_lt h)]

/-! ## Choose and majority (R120, R121) -/

/-- Choose is a multiplexer with its first operand as the select (R120). -/
theorem choose_getLsbD (x y z : Word) {i : Nat} (hi : i < 32) :
    (choose x y z).getLsbD i = if x.getLsbD i then y.getLsbD i else z.getLsbD i := by
  rw [choose, BitVec.getLsbD_xor, BitVec.getLsbD_and, BitVec.getLsbD_and, BitVec.getLsbD_not, decide_eq_true hi,
    Bool.true_and]
  cases x.getLsbD i
  case false => simp
  case true => simp

/-- Majority's formula on one bit. -/
theorem majority_getLsbD (x y z : Word) (i : Nat) :
    (majority x y z).getLsbD i =
      (x.getLsbD i && y.getLsbD i ^^ x.getLsbD i && z.getLsbD i ^^ y.getLsbD i && z.getLsbD i) := by
  rw [majority, BitVec.getLsbD_xor, BitVec.getLsbD_xor, BitVec.getLsbD_and, BitVec.getLsbD_and, BitVec.getLsbD_and]

/-- The truth table of majority's formula (R121). -/
theorem majority_bit_iff (a b c : Bool) :
    (a && b ^^ a && c ^^ b && c) = true ↔ 2 ≤ a.toNat + b.toNat + c.toNat := by
  revert a b c
  decide

/-! ## Big-endian bytes (R122, R123) -/

/-- Byte `k` of a value as a number. -/
theorem byteOf_toNat {m : Nat} (n : Nat) (v : BitVec m) (k : Nat) :
    (byteOf n v k).toNat = v.toNat / 2 ^ (8 * (n - 1 - k)) % 2 ^ 8 := by
  rw [byteOf, BitVec.extractLsb'_toNat, Nat.shiftRight_eq_div_pow]

/-- Reading one more byte of a value: the bytes so far move up by one, and byte `j` enters at the bottom. -/
theorem byteOf_accumulate {m : Nat} (n : Nat) (v : BitVec m) {j : Nat} (hj : j < n) :
    256 * (v.toNat / 2 ^ (8 * (n - j))) + (byteOf n v j).toNat = v.toNat / 2 ^ (8 * (n - (j + 1))) := by
  have hexp : 8 * (n - j) = 8 * (n - 1 - j) + 8 := by omega
  rw [byteOf_toNat, hexp, Nat.pow_add, ← Nat.div_div_eq_div_mul, Nat.sub_add_eq, Nat.sub_right_comm]
  exact Nat.div_add_mod _ 256

/-- The first `j` bytes of a value that fits in `n` bytes, read big-endian, are the value without its `n - j` low bytes. -/
theorem foldl_byteOf_range {m n : Nat} (v : BitVec m) (hm : m ≤ 8 * n) {j : Nat} (hj : j ≤ n) :
    ((List.range j).map (byteOf n v)).foldl (fun acc b => 256 * acc + b.toNat) 0 = v.toNat / 2 ^ (8 * (n - j)) := by
  induction j with
  | zero =>
    have hv : v.toNat < 2 ^ (8 * (n - 0)) := v.isLt.trans_le (Nat.pow_le_pow_right (by decide) hm)
    exact (Nat.div_eq_of_lt hv).symm
  | succ j ih =>
    rw [List.range_succ, List.map_append, List.foldl_append, ih (Nat.le_of_succ_le hj)]
    exact byteOf_accumulate n v hj

/-- The bytes of a 64-bit value, most significant first (R123). -/
theorem bytes64_toList (l : BitVec 64) : (bytes64 l).toList = (List.range 8).map (byteOf 8 l) := by
  rw [bytes64, Vector.toList_ofFn]
  rfl

/-- The eight bytes of a 64-bit value, read big-endian, are the value (R123). -/
theorem foldl_bytes64 (l : BitVec 64) :
    (bytes64 l).toList.foldl (fun acc b => 256 * acc + b.toNat) 0 = l.toNat := by
  rw [bytes64_toList, foldl_byteOf_range l (Nat.le_refl 64) (Nat.le_refl 8)]
  exact Nat.div_one _

/-- Appending a byte below a value multiplies the value by 256. -/
theorem toNat_append_byte {m : Nat} (v : BitVec m) (b : Byte) : (v ++ b).toNat = v.toNat * 2 ^ 8 + b.toNat := by
  rw [BitVec.toNat_append, ← Nat.shiftLeft_add_eq_or_of_lt b.isLt, Nat.shiftLeft_eq]

/-- The value of four bytes (R122). -/
theorem be32_toNat (b0 b1 b2 b3 : Byte) :
    (be32 b0 b1 b2 b3).toNat = b0.toNat * 2 ^ 24 + b1.toNat * 2 ^ 16 + b2.toNat * 2 ^ 8 + b3.toNat := by
  rw [be32, toNat_append_byte, toNat_append_byte, toNat_append_byte]
  omega

/-- A field and the byte just below it are one field. -/
theorem field_append_byte (x : Word) (len start : Nat) :
    x.extractLsb' (start + 8) len ++ x.extractLsb' start 8 = x.extractLsb' start (len + 8) :=
  BitVec.extractLsb'_append_extractLsb'_eq_extractLsb' rfl

/-- Packing the four bytes of a word gives the word (R122). -/
theorem be32_bytes32 (x : Word) : be32 (bytes32 x)[0] (bytes32 x)[1] (bytes32 x)[2] (bytes32 x)[3] = x :=
  calc be32 (bytes32 x)[0] (bytes32 x)[1] (bytes32 x)[2] (bytes32 x)[3]
      = x.extractLsb' 24 8 ++ x.extractLsb' 16 8 ++ x.extractLsb' 8 8 ++ x.extractLsb' 0 8 := rfl
    _ = x.extractLsb' 0 32 := by
        rw [field_append_byte x 8 16, field_append_byte x 16 8, field_append_byte x 24 0]
    _ = x := BitVec.extractLsb'_eq_self

end Sys2Proof.Machine

namespace Sys2Proof

open Sys2Proof.Machine

/-- Settles O52: the general bit lemmas of rotation and shift. -/
theorem rotateAndShiftBitByBit : Obligations.RotateAndShiftBitByBit := by
  intro x n i _ _ hi
  refine ⟨rotr_getLsbD x n hi, ?_⟩
  rw [shr_getLsbD]
  by_cases h : i + n ≤ 31
  · rw [decide_eq_true (Nat.lt_succ_of_le h), Bool.true_and, if_pos h]
  · rw [decide_eq_false (by omega), Bool.false_and, if_neg h]

/-- Settles O53: choose by the value of its select bit, majority by its truth table. -/
theorem chooseAndMajorityBitByBit : Obligations.ChooseAndMajorityBitByBit := by
  intro x y z i hi
  refine ⟨choose_getLsbD x y z hi, ?_⟩
  rw [majority_getLsbD]
  exact majority_bit_iff _ _ _

/-- Settles O54: exclusive or acts bit by bit, on the bits that the rotations and the shift bring there. -/
theorem sigmasBitByBit : Obligations.SigmasBitByBit := by
  intro x i hi
  refine ⟨?_, ?_, ?_, ?_⟩
  · simp only [smallSigma0, BitVec.getLsbD_xor, rotr_getLsbD x _ hi, shr_getLsbD]
  · simp only [smallSigma1, BitVec.getLsbD_xor, rotr_getLsbD x _ hi, shr_getLsbD]
  · simp only [bigSigma0, BitVec.getLsbD_xor, rotr_getLsbD x _ hi]
  · simp only [bigSigma1, BitVec.getLsbD_xor, rotr_getLsbD x _ hi]

/-- Settles O56: each packing by its lemma as a number, and the counter's two by the model's own laws. -/
theorem packingIsBigEndian : Obligations.PackingIsBigEndian :=
  ⟨be32_bytes32, be32_toNat, foldl_bytes64, fun c => ⟨bitLength_toNat c, low6_toNat c⟩⟩

/-- Settles O51: a sum of words as a number. -/
theorem additionWraps : Obligations.AdditionWraps :=
  add32_toNat

end Sys2Proof
end

section
/-! PROOFS of 42_padder.md: the padded message, the micro-operation PAD, and the blocks that the LOAD steps see. -/

namespace Sys2Proof.Machine

/-! ## The padded message (R140 to R143) -/

/-- The zero bytes bring the length to 56 modulo 64 (R141). -/
theorem add_zeroCount_mod (n : Nat) : (n + 1 + zeroCount n) % 64 = 56 := by
  rw [zeroCount]
  omega

theorem zeroCount_lt (n : Nat) : zeroCount n < 64 :=
  Nat.mod_lt _ (by decide)

/-- No smaller number of zero bytes does (R141). -/
theorem zeroCount_le {n z : Nat} (h : (n + 1 + z) % 64 = 56) : zeroCount n ≤ z := by
  have hmod := add_zeroCount_mod n
  have hlt := zeroCount_lt n
  omega

/-- What padding appends to a message of `n` bytes: the marker, the zeros and the length trailer (R140). -/
def padTail (n : Nat) : List Byte :=
  0x80#8 :: List.replicate (zeroCount n) 0#8 ++ (bytes64 (BitVec.ofNat 64 (8 * n))).toList

/-- Padding only appends (R140). -/
theorem pad_eq_append_padTail {m : List Byte} (h : m.length < 2 ^ 61) : pad m = some (m ++ padTail m.length) := by
  rw [pad, if_pos h, padTail, List.append_assoc, List.append_assoc]
  rfl

theorem padTail_length (n : Nat) : (padTail n).length = zeroCount n + 9 := by
  simp [padTail]

/-- The last eight bytes of a padded message are its trailer. -/
theorem drop_append_padTail (m : List Byte) (n : Nat) :
    (m ++ padTail n).drop ((m ++ padTail n).length - 8) = (bytes64 (BitVec.ofNat 64 (8 * n))).toList := by
  rw [padTail, ← List.append_assoc]
  apply List.drop_left'
  rw [List.length_append (bs := Vector.toList _), Vector.length_toList, Nat.add_sub_cancel]

/-- The bit length of a legal message fits the trailer (R142). -/
theorem bitLength_ofNat_toNat {n : Nat} (h : n < 2 ^ 61) : (BitVec.ofNat 64 (8 * n)).toNat = 8 * n :=
  Nat.mod_eq_of_lt (by omega)

/-- The bit length the unit forms from its counter is the one `pad` writes (40_word_arithmetic.md R124). -/
theorem bitLength_eq_ofNat (c : BitVec 61) : bitLength c = BitVec.ofNat 64 (8 * c.toNat) := by
  apply BitVec.eq_of_toNat_eq
  rw [bitLength_toNat, bitLength_ofNat_toNat c.isLt]

/-- A byte of the trailer, as a number (40_word_arithmetic.md R123). -/
theorem bytes64_getElem (l : BitVec 64) {k : Nat} (hk : k < 8) :
    (bytes64 l)[k] = BitVec.ofNat 8 (l.toNat / 2 ^ (8 * (7 - k))) := by
  apply BitVec.eq_of_toNat_eq
  rw [bytes64, Vector.getElem_ofFn, byteOf_toNat, BitVec.toNat_ofNat]

/-- The first byte appended is the marker. -/
theorem padTail_getD_marker (n : Nat) : (padTail n).getD 0 0#8 = 0x80#8 :=
  rfl

/-- The zeros follow. -/
theorem padTail_getD_zeros {n j : Nat} (h : j < zeroCount n) : (padTail n).getD (j + 1) 0#8 = 0#8 := by
  rw [padTail, List.cons_append, List.getD_cons_succ, List.getD_append _ _ _ _ (by simpa using h),
    List.getD_replicate _ h]

/-- The eight bytes of the bit length come last, most significant first. -/
theorem padTail_getD_trailer {n k : Nat} (hn : n < 2 ^ 61) (hk : k < 8) :
    (padTail n).getD (zeroCount n + k + 1) 0#8 = BitVec.ofNat 8 (8 * n / 2 ^ (8 * (7 - k))) := by
  rw [padTail, List.cons_append, List.getD_cons_succ, List.getD_append_right _ _ _ _ (by simp),
    List.length_replicate, Nat.add_sub_cancel_left, List.getD_eq_getElem _ _ (by simpa using hk),
    Vector.getElem_toList, bytes64_getElem _ hk, bitLength_ofNat_toNat hn]

/-! ## The blocks of a padded message (R145) -/

theorem blockOf_getElem (p : List Byte) (i : Nat) {k : Nat} (hk : k < 64) :
    (blockOf p i)[k] = p.getD (64 * i + k) 0#8 :=
  Vector.getElem_ofFn hk

/-- A whole block of the message is a block of the padded message. -/
theorem blockOf_append_of_lt {m : List Byte} (tail : List Byte) {i : Nat} (h : i < m.length / 64) :
    blockOf (m ++ tail) i = blockOf m i := by
  apply Vector.ext
  intro k hk
  rw [blockOf_getElem _ _ hk, blockOf_getElem _ _ hk, List.getD_append _ _ _ _ (by omega)]

/-- The block in which the message ends: its last bytes, the marker, and zeros, with the trailer if there is room for it. -/
theorem markerBlock_getElem {m : List Byte} (hm : m.length < 2 ^ 61) {i : Nat} (hi : i < 64) :
    (blockOf (m ++ padTail m.length) (m.length / 64))[i] =
      if i < m.length % 64 then m.getD (64 * (m.length / 64) + i) 0#8
      else if i = m.length % 64 then 0x80#8
      else if m.length % 64 ≤ 55 ∧ 56 ≤ i then BitVec.ofNat 8 (8 * m.length / 2 ^ (8 * (63 - i)))
      else 0#8 := by
  have hmod := add_zeroCount_mod m.length
  have hlt := zeroCount_lt m.length
  rw [blockOf_getElem _ _ hi]
  split_ifs with hmsg hmark htrail
  · exact List.getD_append _ _ _ _ (by omega)
  · rw [List.getD_append_right _ _ _ _ (by omega), show 64 * (m.length / 64) + i - m.length = 0 by omega]
    exact padTail_getD_marker _
  · rw [List.getD_append_right _ _ _ _ (by omega),
      show 64 * (m.length / 64) + i - m.length = zeroCount m.length + (i - 56) + 1 by omega,
      padTail_getD_trailer hm (by omega), show 7 - (i - 56) = 63 - i by omega]
  · rw [List.getD_append_right _ _ _ _ (by omega),
      show 64 * (m.length / 64) + i - m.length = i - m.length % 64 - 1 + 1 by omega]
    exact padTail_getD_zeros (by omega)

/-- The block after it, where there was no room: zeros and the trailer. -/
theorem trailerBlock_getElem {m : List Byte} (hm : m.length < 2 ^ 61) (hroom : 56 ≤ m.length % 64) {i : Nat}
    (hi : i < 64) :
    (blockOf (m ++ padTail m.length) (m.length / 64 + 1))[i] =
      if 56 ≤ i then BitVec.ofNat 8 (8 * m.length / 2 ^ (8 * (63 - i))) else 0#8 := by
  have hmod := add_zeroCount_mod m.length
  have hlt := zeroCount_lt m.length
  rw [blockOf_getElem _ _ hi, List.getD_append_right _ _ _ _ (by omega)]
  split_ifs with htrail
  · rw [show 64 * (m.length / 64 + 1) + i - m.length = zeroCount m.length + (i - 56) + 1 by omega,
      padTail_getD_trailer hm (by omega), show 7 - (i - 56) = 63 - i by omega]
  · rw [show 64 * (m.length / 64 + 1) + i - m.length = 64 - m.length % 64 + i - 1 + 1 by omega]
    exact padTail_getD_zeros (by omega)

/-! ## The micro-operation PAD (R146) -/

/-- A byte of the trailer that PAD writes at 56. -/
theorem trailerByte_eq (c : BitVec 61) {i : Nat} (hlo : 56 ≤ i) (hi : i < 64) :
    (bytes64 (bitLength c))[i - 56] = BitVec.ofNat 8 (8 * c.toNat / 2 ^ (8 * (63 - i))) := by
  rw [bytes64_getElem _ (by omega), bitLength_toNat, show 7 - (i - 56) = 63 - i by omega]

/-- The block PAD leaves with the marker due. -/
theorem padMarker_BUF_getElem (s : State) {i : Nat} (hi : i < 64) :
    (padMarker s).BUF[i] =
      if i < s.CNT.toNat % 64 then s.BUF[i]
      else if i = s.CNT.toNat % 64 then 0x80#8
      else if s.CNT.toNat % 64 ≤ 55 ∧ 56 ≤ i then BitVec.ofNat 8 (8 * s.CNT.toNat / 2 ^ (8 * (63 - i)))
      else 0#8 := by
  by_cases hroom : s.CNT.toNat % 64 ≤ 55
  · have hbuf : (padMarker s).BUF = putTrailer s.CNT (markBlock s.CNT s.BUF) := by
      rw [padMarker_BUF, low6_toNat, if_pos hroom]
    rw [hbuf, putTrailer_getElem]
    by_cases htrail : 56 ≤ i
    · rw [dif_pos htrail, if_neg (by omega), if_neg (by omega), if_pos ⟨hroom, htrail⟩, trailerByte_eq _ htrail hi]
    · rw [dif_neg htrail, markBlock_getElem, low6_toNat, if_neg (c := _ ∧ _) (fun h => htrail h.2)]
  · have hbuf : (padMarker s).BUF = markBlock s.CNT s.BUF := by
      rw [padMarker_BUF, low6_toNat, if_neg hroom]
    rw [hbuf, markBlock_getElem, low6_toNat, if_neg (c := _ ∧ _) (fun h => hroom h.1)]

/-- The block PAD leaves with the trailer due. -/
theorem padTrailer_BUF_getElem (s : State) {i : Nat} (hi : i < 64) :
    (padTrailer s).BUF[i] =
      if 56 ≤ i then BitVec.ofNat 8 (8 * s.CNT.toNat / 2 ^ (8 * (63 - i))) else 0#8 := by
  have hbuf : (padTrailer s).BUF = putTrailer s.CNT (fillZero s.BUF 0 56) := padTrailer_BUF s
  rw [hbuf, putTrailer_getElem]
  by_cases htrail : 56 ≤ i
  · rw [dif_pos htrail, if_pos htrail, trailerByte_eq _ htrail hi]
  · rw [dif_neg htrail, if_neg htrail, fillZero_getElem, if_pos (by omega)]
    rfl

/-- PAD with the marker due. -/
theorem exec_pad_marker {s : State} (h : s.PH = .pad) (hs : s.ps = .markerDue) :
    exec .pad s = .next (padMarker s) :=
  (inPhase_eq _ h).trans (by rw [hs])

/-- PAD with the trailer due. -/
theorem exec_pad_trailer {s : State} (h : s.PH = .pad) (hs : s.ps = .trailerDue) :
    exec .pad s = .next (padTrailer s) :=
  (inPhase_eq _ h).trans (by rw [hs])

end Sys2Proof.Machine

namespace Sys2Proof

open Sys2Proof.Machine

/-- Settles O41: the count brings the length to 56 modulo 64 and stays below 64, so no smaller one does. -/
theorem zeroCountIsLeast : Obligations.ZeroCountIsLeast := by
  intro n
  have hmod := add_zeroCount_mod n
  have hlt := zeroCount_lt n
  refine ⟨hmod, fun z => zeroCount_le, ?_, ?_, ?_, ?_⟩ <;> omega

/-- Settles O42: what padding appends is nine bytes and the zeros, and the trailer's bytes give the bit length back. -/
theorem padLengthContract : Obligations.PadLengthContract := by
  intro m hm
  have hmod := add_zeroCount_mod m.length
  have hlt := zeroCount_lt m.length
  have hlen : (m ++ padTail m.length).length = m.length + 9 + zeroCount m.length := by
    rw [List.length_append, padTail_length, Nat.add_comm (zeroCount _), Nat.add_assoc]
  have htrailer : ((m ++ padTail m.length).drop ((m ++ padTail m.length).length - 8)).foldl
      (fun acc b => 256 * acc + b.toNat) 0 = 8 * m.length := by
    rw [drop_append_padTail, foldl_bytes64, bitLength_ofNat_toNat (by omega)]
  refine ⟨m ++ padTail m.length, pad_eq_append_padTail (by omega), ?_, ?_, ?_, ?_, hlen, htrailer, ?_, ?_⟩ <;> omega

/-- Settles O24: the two stages leave the blocks of the lemmas above, and PAD's fields are its update's. -/
theorem padWritesOneBlock : Obligations.PadWritesOneBlock := by
  intro s hp hs
  obtain hs | hs := hs
  · refine ⟨padMarker s, exec_pad_marker hp hs, fun _ i => padMarker_BUF_getElem s i.isLt, ?_, ?_, ?_⟩
    · rw [hs]
      nofun
    · rw [padMarker_ps, low6_toNat]
      by_cases hroom : s.CNT.toNat % 64 ≤ 55
      · rw [if_pos hroom, if_neg (by omega)]
      · rw [if_neg hroom, if_pos ⟨hs, by omega⟩]
    · simp
  · refine ⟨padTrailer s, exec_pad_trailer hp hs, ?_, fun _ i => padTrailer_BUF_getElem s i.isLt, ?_, ?_⟩
    · rw [hs]
      nofun
    · rw [padTrailer_ps, hs]
      rfl
    · simp

end Sys2Proof
end

section
/-! PROOFS of 42_padder.md R147: the steps of an open message and of its tail, and the blocks that LOAD sees in them. -/

namespace Sys2Proof.Machine

/-! ## The step of each busy phase -/

/-- A busy phase performs its micro-operation whatever the ports offer (46_host_commands.md R216). -/
theorem step_micro {s : State} {i : Instr} (hr : s.pins.rst = false) (hi : decodePhase s.PH.code = some i) :
    step s = exec i s.nextEdge :=
  step_fetched hr (by simp only [fetch, hi])

theorem step_pad_marker {s : State} (hr : s.pins.rst = false) (h : s.PH = .pad) (hs : s.ps = .markerDue) :
    step s = .next (padMarker s.nextEdge) :=
  (step_micro hr (by rw [h]; rfl)).trans (exec_pad_marker h hs)

theorem step_pad_trailer {s : State} (hr : s.pins.rst = false) (h : s.PH = .pad) (hs : s.ps = .trailerDue) :
    step s = .next (padTrailer s.nextEdge) :=
  (step_micro hr (by rw [h]; rfl)).trans (exec_pad_trailer h hs)

theorem exec_load {s : State} (h : s.PH = .load) : exec .load s = .next (loadBlock s) :=
  inPhase_eq _ h

theorem exec_round {s : State} (h : s.PH = .round) : exec .round s = .next (roundStep s) :=
  inPhase_eq _ h

theorem exec_feed {s : State} {p : Phase} (h : s.PH = .feed) (hs : phaseAfterFeed s.ps = some p) :
    exec .feed s = .next (feedForward p s) :=
  (inPhase_eq _ h).trans (by rw [hs])

theorem step_load {s : State} (hr : s.pins.rst = false) (h : s.PH = .load) : step s = .next (loadBlock s.nextEdge) :=
  (step_micro hr (by rw [h]; rfl)).trans (exec_load h)

theorem step_round {s : State} (hr : s.pins.rst = false) (h : s.PH = .round) : step s = .next (roundStep s.nextEdge) :=
  (step_micro hr (by rw [h]; rfl)).trans (exec_round h)

theorem step_feed {s : State} {p : Phase} (hr : s.pins.rst = false) (h : s.PH = .feed) (hs : phaseAfterFeed s.ps = some p) :
    step s = .next (feedForward p s.nextEdge) :=
  (step_micro hr (by rw [h]; rfl)).trans (exec_feed h hs)

/-! ## What the next steps transfer -/

/-- The next `k` steps transfer exactly `l`, and the last of them transfers the last of it. -/
def Takes (k : Nat) (s : State) (l : List Instr) : Prop :=
  transfers k s = l ∧ ∀ j : Nat, j < k → transfers j s ≠ l

theorem transfers_succ {s t : State} (k : Nat) (h : step s = .next t) :
    transfers (k + 1) s = s.transferred.toList ++ transfers k t := by
  rw [transfers, h]

/-- Once nothing is left to transfer, no step is left. -/
theorem Takes.eq_zero {k : Nat} {s : State} (h : Takes k s []) : k = 0 :=
  Nat.eq_zero_of_not_pos fun hk => h.2 0 hk rfl

/-- A step that transfers nothing leaves everything to the next ones. -/
theorem Takes.of_not_transferred {k : Nat} {s t : State} {l : List Instr} (h : Takes (k + 1) s l)
    (hs : s.transferred = none) (ht : step s = .next t) : Takes k t l := by
  have hsucc (j : Nat) : transfers (j + 1) s = transfers j t := by rw [transfers_succ j ht, hs]; rfl
  exact ⟨(hsucc k).symm.trans h.1, fun j hj => hsucc j ▸ h.2 (j + 1) (Nat.succ_lt_succ hj)⟩

/-- What a step transfers is the first of what is due. -/
theorem Takes.head_eq {k : Nat} {s : State} {i j : Instr} {l : List Instr} (h : Takes (k + 1) s (i :: l))
    (hs : s.transferred = some j) : s.transferred = some i := by
  have htr := h.1
  rw [transfers, hs] at htr
  rw [hs, (List.cons.inj htr).1]

/-- The rest is left to the next steps. -/
theorem Takes.of_transferred {k : Nat} {s t : State} {i : Instr} {l : List Instr} (h : Takes (k + 1) s (i :: l))
    (hs : s.transferred = some i) (ht : step s = .next t) : Takes k t l := by
  have hsucc (j : Nat) : transfers (j + 1) s = i :: transfers j t := by rw [transfers_succ j ht, hs]; rfl
  refine ⟨(List.cons.inj ((hsucc k).symm.trans h.1)).2, fun j hj hl => h.2 (j + 1) (Nat.succ_lt_succ hj) ?_⟩
  rw [hsucc, hl]

/-- Nothing is transferred in a busy phase (46_host_commands.md R210). -/
theorem transferred_busy {s : State} (h : s.PH.ready = false) : s.transferred = none := by
  simp [State.transferred, State.inReady, h]

/-- In a ready phase nothing is transferred only if nothing is offered (R210). -/
theorem inValid_of_not_transferred {s : State} (hr : s.pins.rst = false) (hp : s.PH.ready = true)
    (h : s.transferred = none) : s.pins.inValid = false := by
  simpa [State.transferred, State.inReady, hr, hp] using h

theorem State.Ready.PH_ready {s : State} (h : s.Ready) : s.PH.ready = true := by
  obtain ⟨hp | hp | hp, -⟩ := h <;> rw [hp] <;> rfl

theorem State.Ready.PH_ne_load {s : State} (h : s.Ready) : s.PH ≠ .load := by
  obtain ⟨hp | hp | hp, -⟩ := h <;> rw [hp] <;> nofun

/-- A ready state waits for as long as nothing is transferred (R215). -/
theorem State.Ready.step_waiting {s : State} (h : s.Ready) (hr : s.pins.rst = false) (hs : s.transferred = none) :
    step s = .next s.nextEdge :=
  step_quiet h.PH_ready h.2 hr (inValid_of_not_transferred hr h.PH_ready hs)

/-! ## Runs and the blocks loaded in them -/

/-- The inputs left after a run. -/
theorem run_inputs {k : Nat} {s t : State} (h : run k s = .next t) : t.inputs = s.inputs.drop k := by
  induction k generalizing s with
  | zero => cases h; rfl
  | succ k ih =>
    rw [run] at h
    split at h
    case h_1 u hu => rw [ih h, step_inputs hu, List.drop_tail]
    case h_2 => cases h
    case h_3 => cases h

/-- No reset in a long run: none in its second part. -/
theorem NoReset.after {j k : Nat} {s t : State} (h : NoReset (j + k) s) (ht : run j s = .next t) : NoReset k t := by
  intro p hp
  rw [run_inputs ht] at hp
  exact h p (List.take_add ▸ List.mem_append_right _ hp)

theorem NoReset.mono {j k : Nat} {s : State} (h : NoReset k s) (hjk : j ≤ k) : NoReset j s :=
  fun p hp => h p (List.take_subset_take_left _ hjk hp)

/-- The blocks of a long run are those of its two parts. -/
theorem loadedBlocks_add {j : Nat} (k : Nat) {s t : State} (h : run j s = .next t) :
    loadedBlocks (j + k) s = loadedBlocks j s ++ loadedBlocks k t := by
  induction j generalizing s with
  | zero => cases h; rw [Nat.zero_add]; rfl
  | succ j ih =>
    rw [run] at h
    rw [Nat.succ_add, loadedBlocks, loadedBlocks, List.append_assoc]
    split at h
    case h_1 u hu => rw [ih h]
    case h_2 => cases h
    case h_3 => cases h

/-- `k` steps from `s` lead to `t`, and `bs` are the blocks that their LOAD steps see. -/
structure Feeds (k : Nat) (s : State) (bs : List Block) (t : State) : Prop where
  run : run k s = .next t
  blocks : loadedBlocks k s = bs

/-- The block that the coming step loads, if it is a LOAD step. -/
def State.loadNow (s : State) : List Block :=
  if s.PH = .load then [s.BUF] else []

theorem State.loadNow_of_ne {s : State} (h : s.PH ≠ .load) : s.loadNow = [] :=
  if_neg h

theorem Feeds.zero (s : State) : Feeds 0 s [] s :=
  ⟨rfl, rfl⟩

theorem Feeds.succ {k : Nat} {s t u : State} {bs : List Block} (hr : s.pins.rst = false) (hs : step s = .next t)
    (h : Feeds k t bs u) : Feeds (k + 1) s (s.loadNow ++ bs) u := by
  refine ⟨(run_succ k hs).trans h.run, ?_⟩
  rw [loadedBlocks, hs, ← h.blocks, State.loadNow]
  simp only [hr, and_true]

/-- A step outside LOAD adds no block. -/
theorem Feeds.succ_of_ne {k : Nat} {s t u : State} {bs : List Block} (hr : s.pins.rst = false) (hp : s.PH ≠ .load)
    (hs : step s = .next t) (h : Feeds k t bs u) : Feeds (k + 1) s bs u := by
  have hsucc := h.succ hr hs
  rwa [State.loadNow_of_ne hp] at hsucc

/-- One run after another. -/
theorem Feeds.trans {j k : Nat} {s t u : State} {bs cs : List Block} (h : Feeds j s bs t) (h' : Feeds k t cs u) :
    Feeds (j + k) s (bs ++ cs) u := by
  refine ⟨(run_add j k h.run).trans h'.run, ?_⟩
  rw [loadedBlocks_add k h.run, h.blocks, h'.blocks]

/-! ## The message while it is open (10_state.md R38 h) -/

/-- `c` bytes of the message `m` have been transferred. In RECV the block holds those of its last, incomplete block; any other
phase means that the block was filled, and at LOAD it holds that whole block. -/
structure OpenMessage (m : List Byte) (c : Nat) (s : State) : Prop where
  count : s.CNT.toNat = c
  count_le : c ≤ m.length
  stage : s.ps = .open
  phase : s.PH = .recv ∨ s.PH = .load ∨ s.PH = .round ∨ s.PH = .feed
  bytes : s.PH = .recv → ∀ (i : Nat) (_ : i < 64), i < c % 64 → s.BUF[i] = m.getD (64 * (c / 64) + i) 0#8
  aligned : s.PH ≠ .recv → c % 64 = 0
  block : s.PH = .load → 0 < c ∧ s.BUF = blockOf m (c / 64 - 1)

/-- All of `m` and FINAL have been transferred, and the marker is due. -/
structure ClosedMessage (m : List Byte) (s : State) : Prop where
  count : s.CNT.toNat = m.length
  stage : s.ps = .markerDue
  phase : s.PH = .pad
  bytes : ∀ (i : Nat) (_ : i < 64), i < m.length % 64 → s.BUF[i] = m.getD (64 * (m.length / 64) + i) 0#8

/-- How many whole blocks of the open message LOAD has seen. -/
def State.blocksSeen (s : State) : Nat :=
  if s.PH = .load then s.CNT.toNat / 64 - 1 else s.CNT.toNat / 64

theorem State.blocksSeen_load {s : State} (h : s.PH = .load) : s.blocksSeen = s.CNT.toNat / 64 - 1 :=
  if_pos h

theorem State.blocksSeen_of_ne {s : State} (h : s.PH ≠ .load) : s.blocksSeen = s.CNT.toNat / 64 :=
  if_neg h

/-- INIT opens any message (46_host_commands.md R211). -/
theorem openMessage_isOpen (m : List Byte) (s : State) : OpenMessage m 0 (openMessage s) where
  count := rfl
  count_le := Nat.zero_le _
  stage := rfl
  phase := .inl rfl
  bytes _ _ _ hi := absurd hi (Nat.not_lt_zero _)
  aligned h := absurd rfl h
  block := nofun

theorem openMessage_blocksSeen (s : State) : (openMessage s).blocksSeen = 0 := by
  rw [State.blocksSeen_of_ne (s := openMessage s) nofun, openMessage_CNT]
  rfl

/-- LOAD keeps the message and sees the block that was filled last. -/
theorem OpenMessage.after_load {m : List Byte} {c : Nat} {s : State} (h : OpenMessage m c s) (hp : s.PH = .load) :
    OpenMessage m c (loadBlock s) ∧
      (List.range (loadBlock s).blocksSeen).map (blockOf m) =
        (List.range s.blocksSeen).map (blockOf m) ++ [s.BUF] := by
  have haligned := h.aligned (by rw [hp]; nofun)
  obtain ⟨hpos, hbuf⟩ := h.block hp
  refine ⟨⟨h.count, h.count_le, h.stage, .inr (.inr (.inl rfl)), nofun, fun _ => haligned, nofun⟩, ?_⟩
  have hbefore : s.blocksSeen = c / 64 - 1 := by rw [State.blocksSeen_load hp, h.count]
  have hafter : (loadBlock s).blocksSeen = c / 64 - 1 + 1 := by
    rw [State.blocksSeen_of_ne (s := loadBlock s) nofun, loadBlock_CNT, h.count]
    omega
  rw [hbefore, hafter, List.range_succ, List.map_append, hbuf]
  rfl

/-- ROUND keeps the message. -/
theorem OpenMessage.after_round {m : List Byte} {c : Nat} {s : State} (h : OpenMessage m c s) (hp : s.PH = .round) :
    OpenMessage m c (roundStep s) := by
  have haligned := h.aligned (by rw [hp]; nofun)
  have hphase := roundStep_PH_cases s
  have hrecv : (roundStep s).PH ≠ .recv := by obtain hq | hq := hphase <;> rw [hq] <;> nofun
  have hload : (roundStep s).PH ≠ .load := by obtain hq | hq := hphase <;> rw [hq] <;> nofun
  exact ⟨h.count, h.count_le, h.stage, by tauto, fun hq => absurd hq hrecv, fun _ => haligned,
    fun hq => absurd hq hload⟩

/-- FEED keeps the message; the next block starts without bytes. -/
theorem OpenMessage.after_feed {m : List Byte} {c : Nat} {s : State} (h : OpenMessage m c s) (hp : s.PH = .feed) :
    OpenMessage m c (feedForward .recv s) := by
  have haligned := h.aligned (by rw [hp]; nofun)
  exact ⟨h.count, h.count_le, h.stage, .inl rfl, fun _ i _ hi => by omega, fun _ => haligned, nofun⟩

/-- The inputs of an edge are no part of a message. -/
theorem OpenMessage.nextEdge {m : List Byte} {c : Nat} {s : State} (h : OpenMessage m c s) :
    OpenMessage m c s.nextEdge :=
  ⟨h.count, h.count_le, h.stage, h.phase, h.bytes, h.aligned, h.block⟩

/-- A step that transfers nothing keeps the message, and if it is a LOAD step it sees the next block. -/
theorem OpenMessage.step_unattended {m : List Byte} {c : Nat} {s : State} (h : OpenMessage m c s)
    (hr : s.pins.rst = false) (hs : s.transferred = none) :
    ∃ t : State, step s = .next t ∧ OpenMessage m c t ∧
      (List.range t.blocksSeen).map (blockOf m) = (List.range s.blocksSeen).map (blockOf m) ++ s.loadNow := by
  have hsame {t : State} (hp : s.PH ≠ .load) (ht : t.PH ≠ .load) (hc : t.CNT = s.CNT) :
      (List.range t.blocksSeen).map (blockOf m) = (List.range s.blocksSeen).map (blockOf m) ++ s.loadNow := by
    rw [State.loadNow_of_ne hp, List.append_nil, State.blocksSeen_of_ne hp, State.blocksSeen_of_ne ht, hc]
  obtain hp | hp | hp | hp := h.phase
  · have hready : s.Ready := ⟨.inr (.inl hp), fun _ => h.stage⟩
    have hne : s.PH ≠ .load := by rw [hp]; nofun
    exact ⟨s.nextEdge, hready.step_waiting hr hs, h.nextEdge, hsame hne hne rfl⟩
  · obtain ⟨hopen, hblocks⟩ := h.nextEdge.after_load hp
    exact ⟨loadBlock s.nextEdge, step_load hr hp, hopen, by rw [State.loadNow, if_pos hp]; exact hblocks⟩
  · refine ⟨roundStep s.nextEdge, step_round hr hp, h.nextEdge.after_round hp, hsame (by rw [hp]; nofun) ?_ rfl⟩
    obtain hq | hq := roundStep_PH_cases s.nextEdge <;> rw [hq] <;> nofun
  · exact ⟨feedForward .recv s.nextEdge, step_feed hr hp (by rw [h.stage]; rfl), h.nextEdge.after_feed hp,
      hsame (by rw [hp]; nofun) nofun rfl⟩

/-- Commands are transferred in RECV only. -/
theorem OpenMessage.recv_of_transferred {m : List Byte} {c : Nat} {s : State} {i : Instr} (h : OpenMessage m c s)
    (hs : s.transferred = some i) : s.PH = .recv := by
  have hbusy (hb : s.PH.ready = false) : s.PH = .recv := by rw [transferred_busy hb] at hs; cases hs
  obtain hp | hp | hp | hp := h.phase
  · exact hp
  all_goals exact hbusy (by rw [hp]; rfl)

/-- DATA puts the next byte of the message behind those of its last block. -/
theorem OpenMessage.putByte_next_getElem {m : List Byte} {c : Nat} {s : State} (h : OpenMessage m c s) (hp : s.PH = .recv)
    {i : Nat} (hi : i ≤ c % 64) (hi' : i < 64) :
    (putByte (m.getD c 0#8) s.CNT s.BUF)[i] = m.getD (64 * (c / 64) + i) 0#8 := by
  rw [putByte_getElem, low6_toNat, h.count]
  by_cases hlast : i = c % 64
  · rw [if_pos hlast, hlast, Nat.div_add_mod]
  · rw [if_neg hlast]
    exact h.bytes hp i hi' (by omega)

/-- DATA extends the message by its next byte, and LOAD follows where that byte fills the block (46_host_commands.md R212). -/
theorem OpenMessage.after_data {m : List Byte} {c : Nat} {s : State} (h : OpenMessage m c s) (hp : s.PH = .recv)
    (hc : c < m.length) (hlim : s.CNT ≠ maxCount) :
    OpenMessage m (c + 1) (appendByte (m.getD c 0#8) s) ∧
      (appendByte (m.getD c 0#8) s).blocksSeen = s.blocksSeen := by
  have hcount : (appendByte (m.getD c 0#8) s).CNT.toNat = c + 1 := by
    rw [appendByte_CNT, cnt_succ_toNat _ hlim, h.count]
  have hstage : (appendByte (m.getD c 0#8) s).ps = .open := (appendByte_ps _ s).trans h.stage
  have hseen : s.blocksSeen = c / 64 := by rw [State.blocksSeen_of_ne (by rw [hp]; nofun), h.count]
  have hfull : low6 s.CNT = 63#6 ↔ c % 64 = 63 := by rw [low6_eq_last, h.count]
  by_cases hlast : c % 64 = 63
  · have haligned : (c + 1) % 64 = 0 := by omega
    have hphase : (appendByte (m.getD c 0#8) s).PH = .load := by rw [appendByte_PH, if_pos (hfull.2 hlast)]
    have hblock : (appendByte (m.getD c 0#8) s).BUF = blockOf m ((c + 1) / 64 - 1) := by
      apply Vector.ext
      intro i hi
      rw [blockOf_getElem _ _ hi, show (c + 1) / 64 - 1 = c / 64 by omega]
      exact h.putByte_next_getElem hp (by omega) hi
    refine ⟨⟨hcount, hc, hstage, .inr (.inl hphase), fun hr => ?_, fun _ => haligned, fun _ => ⟨c.succ_pos, hblock⟩⟩, ?_⟩
    · rw [hphase] at hr
      cases hr
    · rw [State.blocksSeen_load hphase, hcount, hseen]
      omega
  · have hphase : (appendByte (m.getD c 0#8) s).PH = .recv := by rw [appendByte_PH, if_neg (mt hfull.1 hlast), hp]
    refine ⟨⟨hcount, hc, hstage, .inl hphase, fun _ i hi hlt => ?_, fun hr => absurd hphase hr, fun hl => ?_⟩, ?_⟩
    · rw [show (c + 1) / 64 = c / 64 by omega]
      exact h.putByte_next_getElem hp (by omega) hi
    · rw [hphase] at hl
      cases hl
    · rw [State.blocksSeen_of_ne (by rw [hphase]; nofun), hcount, hseen]
      omega

/-- FINAL closes the message (46_host_commands.md R213). -/
theorem OpenMessage.after_final {m : List Byte} {s : State} (h : OpenMessage m m.length s) (hp : s.PH = .recv) :
    ClosedMessage m (closeMessage s) :=
  ⟨h.count, rfl, rfl, h.bytes hp⟩

/-- What is still due of the message after `c` of its bytes. -/
def dueAfter (m : List Byte) (c : Nat) : List Instr :=
  (m.drop c).map .data ++ [.final]

theorem dueAfter_length (m : List Byte) : dueAfter m m.length = [.final] := by
  rw [dueAfter, List.drop_length]
  rfl

theorem dueAfter_of_lt {m : List Byte} {c : Nat} (h : c < m.length) :
    dueAfter m c = .data (m.getD c 0#8) :: dueAfter m (c + 1) := by
  rw [dueAfter, List.drop_eq_getElem_cons h, List.getD_eq_getElem _ _ h]
  rfl

theorem bracket_eq_init_cons (m : List Byte) : bracket m = .init :: dueAfter m 0 :=
  rfl

/-- DATA below the count's limit (46_host_commands.md R212). -/
theorem exec_data_below_limit {s : State} (b : Byte) (hp : s.PH = .recv) (ho : s.ps = .open) (hlim : s.CNT ≠ maxCount) :
    exec (.data b) s = .next (appendByte b s) :=
  (needsMessage_recv _ hp ho).trans (by rw [if_neg hlim])

/-- The step that transfers DATA. -/
theorem OpenMessage.step_data {m : List Byte} {c : Nat} {s : State} {b : Byte} (h : OpenMessage m c s)
    (hs : s.transferred = some (.data b)) (hlim : s.CNT ≠ maxCount) : step s = .next (appendByte b s.nextEdge) := by
  rw [step_transferred hs]
  exact exec_data_below_limit (s := s.nextEdge) b (h.recv_of_transferred hs) h.stage hlim

/-- The step that transfers FINAL. -/
theorem OpenMessage.step_final {m : List Byte} {c : Nat} {s : State} (h : OpenMessage m c s)
    (hs : s.transferred = some .final) : step s = .next (closeMessage s.nextEdge) := by
  rw [step_transferred hs]
  exact needsMessage_recv (s := s.nextEdge) _ (h.recv_of_transferred hs) h.stage

/-- A legal message is below the count's limit until its last byte has come. -/
theorem OpenMessage.cnt_ne_max {m : List Byte} {c : Nat} {s : State} (h : OpenMessage m c s) (hm : m.length < 2 ^ 61)
    (hc : c < m.length) : s.CNT ≠ maxCount := by
  rw [Ne, cnt_eq_max, h.count]
  omega

/-- From the open message to FINAL: whatever idle and busy steps lie between the transfers, LOAD sees the whole blocks of the
message that it has not seen yet, in order. -/
theorem OpenMessage.feeds {m : List Byte} {c k : Nat} {s : State} (h : OpenMessage m c s) (hm : m.length < 2 ^ 61)
    (hr : NoReset k s) (ht : Takes k s (dueAfter m c)) :
    ∃ (t : State) (bs : List Block), ClosedMessage m t ∧ Feeds k s bs t ∧
      (List.range s.blocksSeen).map (blockOf m) ++ bs = (List.range (m.length / 64)).map (blockOf m) := by
  induction k generalizing c s with
  | zero => exact absurd ht.1.symm (List.append_ne_nil_of_right_ne_nil _ (List.cons_ne_nil _ _))
  | succ k ih =>
    cases hs : s.transferred with
    | none =>
      obtain ⟨u, hstep, hopen, hseen⟩ := h.step_unattended hr.head hs
      obtain ⟨t, bs, hclosed, hfeeds, hbs⟩ := ih hopen (hr.tail (step_inputs hstep)) (ht.of_not_transferred hs hstep)
      refine ⟨t, s.loadNow ++ bs, hclosed, hfeeds.succ hr.head hstep, ?_⟩
      rw [← List.append_assoc, ← hseen, hbs]
    | some i =>
      have hp := h.recv_of_transferred hs
      have hne : s.PH ≠ .load := by rw [hp]; nofun
      obtain hc | hc := h.count_le.lt_or_eq
      · rw [dueAfter_of_lt hc] at ht
        have hdata := ht.head_eq hs
        have hlim := h.cnt_ne_max hm hc
        have hstep := h.step_data hdata hlim
        obtain ⟨hopen, hseen⟩ := h.nextEdge.after_data hp hc hlim
        obtain ⟨t, bs, hclosed, hfeeds, hbs⟩ := ih hopen (hr.tail (step_inputs hstep)) (ht.of_transferred hdata hstep)
        rw [hseen] at hbs
        exact ⟨t, bs, hclosed, hfeeds.succ_of_ne hr.head hne hstep, hbs⟩
      · rw [hc, dueAfter_length] at ht
        rw [hc] at h
        have hfinal := ht.head_eq hs
        have hstep := h.step_final hfinal
        obtain rfl := (ht.of_transferred hfinal hstep).eq_zero
        refine ⟨_, [], h.nextEdge.after_final hp, (Feeds.zero _).succ_of_ne hr.head hne hstep, ?_⟩
        rw [List.append_nil, State.blocksSeen_of_ne hne, h.count]

/-- From any ready state: LOAD sees nothing before INIT, and then the whole blocks of the message. -/
theorem State.Ready.feeds {m : List Byte} {k : Nat} {s : State} (h : s.Ready) (hm : m.length < 2 ^ 61) (hr : NoReset k s)
    (ht : Takes k s (bracket m)) :
    ∃ t : State, ClosedMessage m t ∧ Feeds k s ((List.range (m.length / 64)).map (blockOf m)) t := by
  induction k generalizing s with
  | zero => exact absurd ht.1 nofun
  | succ k ih =>
    cases hs : s.transferred with
    | none =>
      have hstep := h.step_waiting hr.head hs
      obtain ⟨t, hclosed, hfeeds⟩ :=
        ih (s := s.nextEdge) h (hr.tail (step_inputs hstep)) (ht.of_not_transferred hs hstep)
      exact ⟨t, hclosed, hfeeds.succ_of_ne hr.head h.PH_ne_load hstep⟩
    | some i =>
      rw [bracket_eq_init_cons] at ht
      have hinit := ht.head_eq hs
      have hstep : step s = .next (openMessage s.nextEdge) := by
        rw [step_transferred hinit]
        exact onTransfer_ready (s := s.nextEdge) _ h
      obtain ⟨t, bs, hclosed, hfeeds, hbs⟩ :=
        (openMessage_isOpen m _).feeds hm (hr.tail (step_inputs hstep)) (ht.of_transferred hinit hstep)
      rw [← hbs, openMessage_blocksSeen]
      exact ⟨t, hclosed, hfeeds.succ_of_ne hr.head h.PH_ne_load hstep⟩

/-! ## The tail (46_host_commands.md R219) -/

/-- What the compression of a block leaves alone. -/
structure KeepsBlock (s t : State) : Prop where
  stage : t.ps = s.ps
  count : t.CNT = s.CNT
  block : t.BUF = s.BUF

theorem Feeds.succ_round {k : Nat} {s t : State} (hr : s.pins.rst = false) (hp : s.PH = .round)
    (h : Feeds k (roundStep s.nextEdge) [] t) : Feeds (k + 1) s [] t :=
  h.succ_of_ne hr (by rw [hp]; nofun) (step_round hr hp)

/-- The rounds that are left of a block, up to FEED. -/
theorem feeds_rounds {j : Nat} {s : State} (hp : s.PH = .round) (ht : s.t.toNat + j = 63) (hr : NoReset (j + 1) s) :
    ∃ t : State, Feeds (j + 1) s [] t ∧ t.PH = .feed ∧ KeepsBlock s t := by
  induction j generalizing s with
  | zero =>
    have hlast : s.t = 63#6 := (t_eq_last _).2 ht
    exact ⟨_, (Feeds.zero _).succ_round hr.head hp, if_pos hlast, rfl, rfl, rfl⟩
  | succ j ih =>
    have hmore : s.t ≠ 63#6 := fun h => by rw [t_eq_last] at h; omega
    have hphase : (roundStep s.nextEdge).PH = .round := if_neg hmore
    have hindex : (roundStep s.nextEdge).t.toNat + j = 63 := by
      rw [roundStep_t, State.nextEdge_t, if_neg hmore, t_succ_toNat _ (by omega)]
      omega
    obtain ⟨t, hfeeds, hfeed, hkeep⟩ := ih hphase hindex (hr.tail rfl)
    exact ⟨t, hfeeds.succ_round hr.head hp, hfeed, hkeep.stage, hkeep.count, hkeep.block⟩

/-- The 66 steps from LOAD to the phase after FEED see the one block. -/
theorem feeds_block {s : State} {p : Phase} (hp : s.PH = .load) (hs : phaseAfterFeed s.ps = some p) (hr : NoReset 66 s) :
    ∃ t : State, Feeds 66 s [s.BUF] t ∧ t.PH = p ∧ KeepsBlock s t := by
  have hload := step_load hr.head hp
  have hr' := hr.tail (step_inputs hload)
  obtain ⟨u, hrounds, hfeed, hkeep⟩ :=
    feeds_rounds (j := 63) (s := loadBlock s.nextEdge) rfl rfl (hr'.mono (by decide))
  have hr'' : NoReset 1 u := NoReset.after (j := 64) hr' hrounds.run
  have hstep := step_feed hr''.head hfeed (by rw [hkeep.stage]; exact hs)
  have hlast : Feeds 1 u [] _ := (Feeds.zero _).succ_of_ne hr''.head (by rw [hfeed]; nofun) hstep
  have hall := (hrounds.trans hlast).succ hr.head hload
  rw [State.loadNow, if_pos hp] at hall
  exact ⟨_, hall, rfl, hkeep.stage, hkeep.count, hkeep.block⟩

/-- A PAD step and the 66 steps after it see the one block that PAD leaves. -/
theorem feeds_padded_block {s u : State} {p : Phase} (hp : s.PH = .pad) (hstep : step s = .next u) (hu : u.PH = .load)
    (hs : phaseAfterFeed u.ps = some p) (hr : NoReset 67 s) :
    ∃ t : State, Feeds 67 s [u.BUF] t ∧ t.PH = p ∧ KeepsBlock u t := by
  obtain ⟨t, hfeeds, hphase, hkeep⟩ := feeds_block hu hs (hr.tail (step_inputs hstep))
  exact ⟨t, hfeeds.succ_of_ne hr.head (by rw [hp]; nofun) hstep, hphase, hkeep⟩

/-- The block that the first PAD leaves is the one in which the padded message goes on after the whole blocks of the message. -/
theorem ClosedMessage.padMarker_BUF_eq {m : List Byte} {s : State} (h : ClosedMessage m s) (hm : m.length < 2 ^ 61) :
    (padMarker s.nextEdge).BUF = blockOf (m ++ padTail m.length) (m.length / 64) := by
  apply Vector.ext
  intro i hi
  rw [padMarker_BUF_getElem _ hi, markerBlock_getElem hm hi, State.nextEdge_CNT, h.count]
  by_cases hmsg : i < m.length % 64
  · rw [if_pos hmsg, if_pos hmsg]
    exact h.bytes i hi hmsg
  · rw [if_neg hmsg, if_neg hmsg]

/-- The block that the second PAD leaves is the one after it. -/
theorem padTrailer_BUF_eq {m : List Byte} {s : State} (hc : s.CNT.toNat = m.length) (hm : m.length < 2 ^ 61)
    (hroom : 56 ≤ m.length % 64) :
    (padTrailer s).BUF = blockOf (m ++ padTail m.length) (m.length / 64 + 1) := by
  apply Vector.ext
  intro i hi
  rw [padTrailer_BUF_getElem _ hi, trailerBlock_getElem hm hroom hi, hc]

/-- The tail after FINAL: LOAD sees the remaining one or two blocks of the padded message, and DONE follows. -/
theorem ClosedMessage.feeds {m : List Byte} {s : State} (h : ClosedMessage m s) (hm : m.length < 2 ^ 61)
    (hr : NoReset (tailSteps m.length) s) :
    ∃ (t : State) (bs : List Block), t.PH = .done ∧ Feeds (tailSteps m.length) s bs t ∧
      (List.range (m.length / 64)).map (blockOf (m ++ padTail m.length)) ++ bs =
        (List.range (blockCount m.length)).map (blockOf (m ++ padTail m.length)) := by
  have hmarker := h.padMarker_BUF_eq hm
  by_cases hroom : m.length % 64 ≤ 55
  · have hstage : (padMarker s.nextEdge).ps = .last := by
      rw [padMarker_ps, State.nextEdge_CNT, low6_toNat, h.count, if_pos hroom]
    rw [tailSteps, if_pos hroom] at hr ⊢
    obtain ⟨t, hfeeds, hphase, -⟩ :=
      feeds_padded_block (p := .done) h.phase (step_pad_marker hr.head h.phase h.stage) rfl (by rw [hstage]; rfl) hr
    refine ⟨t, _, hphase, hfeeds, ?_⟩
    rw [blockCount, show (m.length + 8) / 64 = m.length / 64 by omega, List.range_succ, List.map_append, hmarker]
    rfl
  · have hstage : (padMarker s.nextEdge).ps = .trailerDue := by
      rw [padMarker_ps, State.nextEdge_CNT, low6_toNat, h.count, if_neg hroom]
    rw [tailSteps, if_neg hroom] at hr ⊢
    have hr1 : NoReset 67 s := hr.mono (by decide)
    obtain ⟨u, hfirst, hpad, hkeep⟩ :=
      feeds_padded_block (p := .pad) h.phase (step_pad_marker hr1.head h.phase h.stage) rfl (by rw [hstage]; rfl) hr1
    have hr2 : NoReset 67 u := NoReset.after (j := 67) hr hfirst.run
    have hdue : u.ps = .trailerDue := hkeep.stage.trans hstage
    obtain ⟨t, hsecond, hphase, -⟩ :=
      feeds_padded_block (p := .done) hpad (step_pad_trailer hr2.head hpad hdue) rfl rfl hr2
    have hcount : u.nextEdge.CNT.toNat = m.length := by rw [State.nextEdge_CNT, hkeep.count]; exact h.count
    refine ⟨t, _, hphase, hfirst.trans hsecond, ?_⟩
    rw [blockCount, show (m.length + 8) / 64 = m.length / 64 + 1 by omega, List.range_succ, List.range_succ,
      List.map_append, List.map_append, hmarker, padTrailer_BUF_eq hcount hm (by omega), List.append_assoc]
    rfl

end Sys2Proof.Machine

namespace Sys2Proof

open Sys2Proof.Machine

/-- Settles O48: LOAD sees the whole blocks of the message up to FINAL, and the blocks with the padding in the tail. -/
theorem padderFeedsTheBlocksOfPad : Obligations.PadderFeedsTheBlocksOfPad := by
  intro s m k hready hlen hr htransfers hleast
  have hm : m.length < 2 ^ 61 := by omega
  obtain ⟨t, hclosed, hopen⟩ := hready.feeds hm (hr.mono (Nat.le_add_right _ _)) ⟨htransfers, hleast⟩
  obtain ⟨u, bs, -, htail, hbs⟩ := hclosed.feeds hm (hr.after hopen.run)
  refine ⟨m ++ padTail m.length, pad_eq_append_padTail hm, (hopen.trans htail).blocks.trans ?_⟩
  rw [← hbs, List.map_congr_left fun i hi => blockOf_append_of_lt (padTail m.length) (List.mem_range.1 hi)]

end Sys2Proof
end

section
/-! PROOFS of 43_schedule_expander.md: the words of the schedule, LOAD, and the window in the rounds after it. -/

namespace Sys2Proof.Machine

/-! ## The schedule as the spec writes it (R160) -/

/-- Step 1 for `expand` (R160). -/
theorem expand_block (b : Block) {i : Nat} (h : i < 16) : (expand b)[i] = blockWord b ⟨i, h⟩ :=
  (expand_getElem b i (by omega)).trans (scheduleAt_block b i h)

/-- Step 2 for `expand` (R160). -/
theorem expand_add_sixteen (b : Block) {j : Nat} (h : j < 48) :
    (expand b)[j + 16] = scheduleWord (expand b)[j] (expand b)[j + 1] (expand b)[j + 9] (expand b)[j + 14] := by
  simp only [expand_getElem, scheduleAt_add_sixteen]

/-! ## The window (R163) -/

/-- The window holds the schedule words of block `b` from word `j` on. -/
def WindowAt (b : Block) (j : Nat) (win : Vector Word 16) : Prop :=
  ∀ (i : Nat) (hi : i < 16), win[i] = scheduleAt b (j + i)

/-- LOAD's window starts at word 0 (R161). -/
theorem windowAt_loadWindow (b : Block) : WindowAt b 0 (loadWindow b) := by
  intro i hi
  rw [loadWindow_getElem b i hi, Nat.zero_add, scheduleAt_block b i hi]

/-- WSHIFT moves the window on by one word: its new top is the recurrence on four words of the old window (R162). -/
theorem WindowAt.wshift {b : Block} {j : Nat} {win : Vector Word 16} (h : WindowAt b j win) :
    WindowAt b (j + 1) (wshift win) := by
  intro i hi
  rw [wshift_getElem win i hi]
  by_cases hmoved : i < 15
  · rw [dif_pos hmoved, h (i + 1), Nat.add_right_comm, Nat.add_assoc]
  · obtain rfl : i = 15 := by omega
    rw [dif_neg hmoved, h 0, h 1, h 9, h 14]
    exact (scheduleAt_add_sixteen b j).symm

/-- Round `j` of block `b` is due: its index is in `t`, and its schedule words are in the window (R163). -/
structure RoundDue (b : Block) (j : Nat) (s : State) : Prop where
  phase : s.PH = .round
  index : s.t.toNat = j
  window : WindowAt b j s.WIN

/-- After LOAD round 0 is due (R161). -/
theorem loadBlock_roundDue (s : State) : RoundDue s.BUF 0 (loadBlock s) :=
  ⟨rfl, rfl, windowAt_loadWindow s.BUF⟩

/-- After every round but the last the next one is due (44_compressor.md R177). -/
theorem RoundDue.roundStep {b : Block} {j : Nat} {s : State} (h : RoundDue b j s) (hj : j < 63) :
    RoundDue b (j + 1) (roundStep s) := by
  have hmore : s.t ≠ 63#6 := fun hlast => by rw [t_eq_last, h.index] at hlast; omega
  refine ⟨if_neg hmore, ?_, h.window.wshift⟩
  rw [roundStep_t, if_neg hmore, t_succ_toNat _ (by rw [h.index]; exact hj), h.index]

/-- The inputs of an edge are no part of a round. -/
theorem RoundDue.nextEdge {b : Block} {j : Nat} {s : State} (h : RoundDue b j s) : RoundDue b j s.nextEdge :=
  ⟨h.phase, h.index, h.window⟩

/-- From round `j`, `k` steps on, round `j + k` is due, as long as there is one. -/
theorem RoundDue.run {b : Block} {j k : Nat} {s : State} (h : RoundDue b j s) (hlast : j + k ≤ 63) (hr : NoReset k s) :
    ∃ u : State, run k s = .next u ∧ RoundDue b (j + k) u := by
  induction k generalizing j s with
  | zero => exact ⟨s, rfl, h⟩
  | succ k ih =>
    have hstep := step_round hr.head h.phase
    obtain ⟨u, hrun, hdue⟩ := ih (h.nextEdge.roundStep (by omega)) (by omega) (hr.tail (step_inputs hstep))
    exact ⟨u, (run_succ k hstep).trans hrun, by rwa [Nat.add_right_comm, Nat.add_assoc] at hdue⟩

/-- From LOAD, `1 + j` steps on, round `j` of the block in `BUF` is due. -/
theorem roundDue_after_load {s : State} {j : Nat} (hp : s.PH = .load) (hj : j ≤ 63) (hr : NoReset (1 + j) s) :
    ∃ u : State, run (1 + j) s = .next u ∧ RoundDue s.BUF j u := by
  rw [Nat.add_comm] at hr ⊢
  have hstep := step_load hr.head hp
  obtain ⟨u, hrun, hdue⟩ :=
    (loadBlock_roundDue s.nextEdge).run (k := j) (by omega) (hr.tail (step_inputs hstep))
  exact ⟨u, (run_succ j hstep).trans hrun, by rwa [Nat.zero_add] at hdue⟩

end Sys2Proof.Machine

namespace Sys2Proof

open Sys2Proof.Machine

/-- Settles O44: `expand` gives the schedule's words, which Step 1 starts and the recurrence continues. -/
theorem expandFollowsTheRecurrence : Obligations.ExpandFollowsTheRecurrence := by
  intro b
  exact ⟨fun i => expand_block b i.isLt, fun j => expand_add_sixteen b j.isLt, fun j => expand_getElem b j j.isLt,
    scheduleAt_add_sixteen b⟩

/-- Settles O45: LOAD makes the window of round 0, and each round moves it on with `t`. -/
theorem windowHoldsTheSchedule : Obligations.WindowHoldsTheSchedule := by
  intro s j hp hj hr
  obtain ⟨u, hrun, hdue⟩ := roundDue_after_load hp hj hr
  exact ⟨u, hrun, hdue.phase, hdue.index, fun i => hdue.window i i.isLt⟩

/-- Settles O25: LOAD's window is Step 1 of the schedule, and its other fields are its update's. -/
theorem loadReadsTheBlock : Obligations.LoadReadsTheBlock := by
  intro s hp
  exact ⟨loadBlock s, exec_load hp, fun i => loadWindow_getElem s.BUF i i.isLt, rfl, rfl, rfl, rfl, rfl, rfl, rfl, rfl,
    rfl, rfl⟩

end Sys2Proof
end

section
/-! PROOFS of 44_compressor.md: ROUND, FEED, and the compression of a block by LOAD, 64 ROUNDs and FEED. -/

namespace Sys2Proof.Machine

/-! ## One round (R177) -/

/-- At the last round the index stays, and FEED follows. -/
theorem roundStep_last {s : State} (h : s.t.toNat = 63) : (roundStep s).t = s.t ∧ (roundStep s).PH = .feed := by
  have hlast : s.t = 63#6 := (t_eq_last s.t).2 h
  exact ⟨if_pos hlast, if_pos hlast⟩

/-- Before it the index counts up, and another round follows. -/
theorem roundStep_more {s : State} (h : s.t.toNat < 63) :
    (roundStep s).t.toNat = s.t.toNat + 1 ∧ (roundStep s).PH = .round := by
  have hmore : s.t ≠ 63#6 := fun hlast => by rw [t_eq_last] at hlast; omega
  refine ⟨?_, if_neg hmore⟩
  rw [roundStep_t, if_neg hmore, t_succ_toNat s.t h]

/-! ## The phase after FEED (R178) -/

/-- Every stage but the unreachable one has its phase after FEED. -/
theorem phaseAfterFeed_of_ne {ps : Stage} (h : ps ≠ .markerDue) :
    ∃ p : Phase, phaseAfterFeed ps = some p ∧
      (ps = .open → p = .recv) ∧ (ps = .trailerDue → p = .pad) ∧ (ps = .last → p = .done) := by
  match ps with
  | .open => exact ⟨.recv, rfl, fun _ => rfl, nofun, nofun⟩
  | .markerDue => exact absurd rfl h
  | .trailerDue => exact ⟨.pad, rfl, nofun, fun _ => rfl, nofun⟩
  | .last => exact ⟨.done, rfl, nofun, nofun, fun _ => rfl⟩

/-- FEED with the marker due stops (log entry 6). -/
theorem exec_feed_markerDue {s : State} (h : s.PH = .feed) (hs : s.ps = .markerDue) :
    exec .feed s = .fault .feedStage :=
  (inPhase_eq _ h).trans (by rw [hs]; rfl)

/-! ## The rounds of a block (R176, R179) -/

/-- In `u`, the first `j` rounds of the block that stood in `BUF` at the LOAD state `s` are done. -/
structure RoundsDone (s : State) (j : Nat) (hj : j ≤ 64) (u : State) : Prop extends KeepsBlock s u where
  words : u.V = afterRounds s.H (expand s.BUF) j hj
  chain : u.H = s.H
  code : u.FC = s.FC
  phase : u.PH = if j < 64 then .round else .feed

/-- After LOAD no round is done: the working words are the chaining value. -/
theorem loadBlock_roundsDone (s : State) : RoundsDone s 0 (Nat.zero_le 64) (loadBlock s.nextEdge) where
  stage := rfl
  count := rfl
  block := rfl
  words := rfl
  chain := rfl
  code := rfl
  phase := rfl

/-- The round that is due is the next one of `compress`: the window's first word is its schedule word. -/
theorem RoundsDone.roundStep {s u : State} {j : Nat} {hj : j ≤ 64} (h : RoundsDone s j hj u) (hdue : RoundDue s.BUF j u)
    (hj' : j + 1 ≤ 64) : RoundsDone s (j + 1) hj' (roundStep u.nextEdge) where
  stage := h.stage
  count := h.count
  block := h.block
  words := by
    have hindex : roundIndex u.t = ⟨j, hj'⟩ := Fin.ext hdue.index
    have hword : u.WIN[0] = (expand s.BUF)[j] := (hdue.window 0 (by decide)).trans (expand_getElem s.BUF j hj').symm
    rw [roundStep_V, State.nextEdge_t, State.nextEdge_V, afterRounds, ← h.words, ← hindex, ← hword]
    rfl
  chain := h.chain
  code := h.code
  phase := by
    have hindex : u.nextEdge.t.toNat = j := hdue.index
    by_cases hmore : j + 1 < 64
    · rw [if_pos hmore, (roundStep_more (by omega)).2]
    · rw [if_neg hmore, (roundStep_last (by omega)).2]

/-- From LOAD, `1 + j` steps on, the first `j` rounds are done. -/
theorem roundsDone_after_load {s : State} (hp : s.PH = .load) {j : Nat} (hj : j ≤ 64) (hr : NoReset (1 + j) s) :
    ∃ u : State, run (1 + j) s = .next u ∧ RoundsDone s j hj u := by
  induction j with
  | zero => exact ⟨_, run_succ 0 (step_load hr.head hp), loadBlock_roundsDone s⟩
  | succ j ih =>
    have hr' : NoReset (1 + j) s := hr.mono (by omega)
    obtain ⟨u, hrun, hdone⟩ := ih (by omega) hr'
    obtain ⟨_, hrun', hdue⟩ := roundDue_after_load hp (by omega) hr'
    obtain rfl := Host.Outcome.next.inj (hrun.symm.trans hrun')
    have hstep := step_round (NoReset.after (k := 1) hr hrun).head hdue.phase
    exact ⟨_, (run_add (1 + j) 1 hrun).trans (run_succ 0 hstep), hdone.roundStep hdue hj⟩

/-- From LOAD, 66 steps on, FEED has added the working words after 64 rounds to the chaining value (R179). -/
theorem compress_after_load {s : State} {p : Phase} (hp : s.PH = .load) (hs : phaseAfterFeed s.ps = some p)
    (hr : NoReset 66 s) :
    ∃ u : State, run 66 s = .next u ∧ u.H = compress s.H (expand s.BUF) ∧ KeepsBlock s u ∧ u.FC = s.FC ∧ u.PH = p := by
  obtain ⟨u, hrun, hdone⟩ := roundsDone_after_load hp (Nat.le_refl 64) (hr.mono (by decide))
  have hstep := step_feed (NoReset.after (j := 65) (k := 1) hr hrun).head hdone.phase (by rw [hdone.stage]; exact hs)
  refine ⟨_, (run_add 65 1 hrun).trans (run_succ 0 hstep), ?_, ⟨hdone.stage, hdone.count, hdone.block⟩, hdone.code, rfl⟩
  rw [feedForward_H, State.nextEdge_H, State.nextEdge_V, hdone.chain, hdone.words, compress]

end Sys2Proof.Machine

namespace Sys2Proof

open Sys2Proof.Machine

/-- Settles O46: 64 rounds after LOAD the working words are those of `compress`, and FEED adds them to `H`. -/
theorem blockIsCompressed : Obligations.BlockIsCompressed := by
  intro s hp hs hr
  obtain ⟨p, hnext, hopen, htrailer, hlast⟩ := phaseAfterFeed_of_ne hs
  obtain ⟨u, hrun, hchain, hkeep, hcode, rfl⟩ := compress_after_load hp hnext hr
  exact ⟨u, hrun, hchain, hkeep.stage, hkeep.count, hcode, hopen, htrailer, hlast⟩

/-- Settles O26: `V` is the round function's value, the window's words are WSHIFT's, and the index decides the phase. -/
theorem roundTransformsWordsAndWindow : Obligations.RoundTransformsWordsAndWindow := by
  intro s hp
  refine ⟨roundStep s, temp1 (K[s.t.toNat]'s.t.isLt) s.WIN[0] s.V[4] s.V[5] s.V[6] s.V[7], temp2 s.V[0] s.V[1] s.V[2],
    exec_round hp, rfl, rfl, roundStep_V s, fun i => ?_, ?_, roundStep_last, roundStep_more, rfl, rfl, rfl, rfl, rfl, rfl,
    rfl⟩
  · exact (wshift_getElem s.WIN i (by omega)).trans (dif_pos i.isLt)
  · exact (wshift_getElem s.WIN 15 (by decide)).trans (dif_neg (by decide))

/-- Settles O27: the lanes are added one by one, and the stage decides the phase. -/
theorem feedAddsLanesAndChoosesPhase : Obligations.FeedAddsLanesAndChoosesPhase := by
  intro s hp
  refine ⟨fun hs => ?_, exec_feed_markerDue hp⟩
  obtain ⟨p, hnext, hopen, htrailer, hlast⟩ := phaseAfterFeed_of_ne hs
  refine ⟨feedForward p s, exec_feed hp hnext, fun i => ?_, hopen, htrailer, hlast, rfl, rfl, rfl, rfl, rfl, rfl, rfl, rfl,
    rfl⟩
  have hlane : (feedForward p s).H[i] = s.H[i] + s.V[i] := addLanes_getElem s.H s.V i i.isLt
  rw [hlane, BitVec.toNat_add]

end Sys2Proof
end

section
/-! PROOFS of 45_digest_and_hash.md R195 to R197: the digest as bytes, as the port's bits and as hexadecimal characters. -/

namespace Sys2Proof.Machine

/-! ## The digest's bits (R195, R196) -/

/-- A field of a field is a field of the whole. -/
theorem field_of_field {n : Nat} (x : BitVec n) {start len start' len' : Nat} (h : start' + len' ≤ len) :
    (x.extractLsb' start len).extractLsb' start' len' = x.extractLsb' (start + start') len' := by
  apply BitVec.eq_of_getLsbD_eq
  intro i hi
  rw [BitVec.getLsbD_extractLsb', BitVec.getLsbD_extractLsb', BitVec.getLsbD_extractLsb', decide_eq_true hi,
    decide_eq_true (show start' + i < len by omega), Bool.true_and, Bool.true_and, Bool.true_and, Nat.add_assoc]

/-- The bytes of a word, most significant first (R122). -/
theorem bytes32_getElem (x : Word) {i : Nat} (hi : i < 4) : (bytes32 x)[i] = x.extractLsb' (24 - 8 * i) 8 := by
  match i, hi with
  | 0, _ | 1, _ | 2, _ | 3, _ => rfl

/-- A field that lies above the last word is a field of what stands before that word. -/
theorem field_above_word {n : Nat} (x : BitVec n) (w : Word) (start : Nat) :
    (x ++ w).extractLsb' (start + 32) 32 = x.extractLsb' start 32 :=
  BitVec.extractLsb'_append_eq_of_le (Nat.le_add_left 32 start)

/-- The port carries word 0 in its most significant position, and the others below it in order (R196). -/
theorem digestBits_word (h : Words8) {i : Nat} (hi : i < 8) : (digestBits h).extractLsb' (224 - 32 * i) 32 = h[i] := by
  match i, hi with
  | 0, _ =>
    simp only [digestBits, field_above_word]
    exact BitVec.extractLsb'_eq_self
  | 1, _ | 2, _ | 3, _ | 4, _ | 5, _ | 6, _ | 7, _ =>
    simp only [digestBits, field_above_word]
    exact BitVec.extractLsb'_append_eq_right

/-- Byte `k` of the digest stands in byte `k` of the port, counted from the most significant end (R195, R196). -/
theorem finalize_getElem (h : Words8) {k : Nat} (hk : k < 32) :
    (finalize h)[k] = (digestBits h).extractLsb' (248 - 8 * k) 8 := by
  calc (finalize h)[k]
      = (bytes32 h[k / 4])[k % 4] := by simp only [finalize, Vector.getElem_ofFn]
    _ = ((digestBits h).extractLsb' (224 - 32 * (k / 4)) 32).extractLsb' (24 - 8 * (k % 4)) 8 := by
        rw [bytes32_getElem _ (by omega), digestBits_word h (by omega)]
    _ = (digestBits h).extractLsb' (248 - 8 * k) 8 := by
        rw [field_of_field _ (by omega), show 224 - 32 * (k / 4) + (24 - 8 * (k % 4)) = 248 - 8 * k by omega]

/-- The first `n` bytes of a digest, read as one number, are the upper `n` bytes of the bits they come from. -/
theorem memValue_of_bytes {x : BitVec 256} {d : Vector Byte 32}
    (h : ∀ (k : Nat) (_ : k < 32), d[k] = x.extractLsb' (248 - 8 * k) 8) (n : Nat) (hn : n ≤ 32) :
    digestOfBytes.memValue d n hn = x.extractLsb' (256 - 8 * n) (8 * n) := by
  induction n with
  | zero => exact BitVec.eq_of_zero_length rfl
  | succ n ih =>
    rw [digestOfBytes.memValue, ih (by omega), h n hn,
      BitVec.extractLsb'_append_extractLsb'_eq_extractLsb' (by omega), show 256 - 8 * (n + 1) = 248 - 8 * n by omega]
    rfl

/-- The port carries the digest, byte 0 most significant (R196). -/
theorem digestOfBytes_finalize (h : Words8) : digestOfBytes (finalize h) = digestBits h :=
  (memValue_of_bytes (fun _ hk => finalize_getElem h hk) 32 (Nat.le_refl 32)).trans BitVec.extractLsb'_eq_self

/-! ## The hexadecimal rendering (R197) -/

/-- The characters of the digits below ten start at `0`, those of the others at `a` (R197). -/
theorem hexDigit_toNat (x : BitVec 4) : (hexDigit x).toNat = if x.toNat < 10 then 48 + x.toNat else 87 + x.toNat := by
  revert x
  decide

/-- A hexadecimal digit is `0` to `9` or `a` to `f` (R197). -/
theorem hexDigit_range (x : BitVec 4) :
    ('0' ≤ hexDigit x ∧ hexDigit x ≤ '9') ∨ ('a' ≤ hexDigit x ∧ hexDigit x ≤ 'f') := by
  revert x
  decide

/-- Distinct digits have distinct characters (R197). -/
theorem hexDigit_injective : Function.Injective hexDigit := by
  intro x y h
  have hcode : (hexDigit x).toNat = (hexDigit y).toNat := congrArg Char.toNat h
  rw [hexDigit_toNat, hexDigit_toNat] at hcode
  apply BitVec.eq_of_toNat_eq
  have := x.isLt
  have := y.isLt
  split_ifs at hcode <;> omega

/-- In a list of pairs written out, pair `k` stands at `2k` and `2k + 1`. -/
theorem flatMap_pair_getElem? {α β : Type} (f g : α → β) (l : List α) (k : Nat) :
    (l.flatMap fun a => [f a, g a])[2 * k]? = l[k]?.map f ∧
      (l.flatMap fun a => [f a, g a])[2 * k + 1]? = l[k]?.map g := by
  induction l generalizing k with
  | nil => exact ⟨rfl, rfl⟩
  | cons a l ih =>
    cases k with
    | zero => exact ⟨rfl, rfl⟩
    | succ k => exact ih k

/-- Two characters a byte (R197). -/
theorem lowercaseHex_length (d : Vector Byte 32) : (lowercaseHex d).length = 64 := by
  rw [lowercaseHex, List.length_flatMap]
  simp

theorem mem_lowercaseHex {d : Vector Byte 32} {c : Char} (h : c ∈ lowercaseHex d) : ∃ x : BitVec 4, c = hexDigit x := by
  obtain ⟨b, -, hc⟩ := List.mem_flatMap.1 h
  obtain hc | hc := List.mem_pair.1 hc
  · exact ⟨_, hc⟩
  · exact ⟨_, hc⟩

end Sys2Proof.Machine

namespace Sys2Proof

open Sys2Proof.Machine

/-- Settles O31: each word and each byte stands at its place among the port's bits. -/
theorem digestPortCarriesFinalize : Obligations.DigestPortCarriesFinalize := by
  intro h
  exact ⟨fun k => (finalize_getElem h k.isLt).symm, fun i => digestBits_word h i.isLt, digestOfBytes_finalize h⟩

/-- Settles O57: the digits by their sixteen values, the rendering by its pairs of characters. -/
theorem hexDigestIsLowercase : Obligations.HexDigestIsLowercase := by
  intro d
  refine ⟨lowercaseHex_length d, fun c hc => ?_, fun k => ?_, fun x => ?_, hexDigit_injective, fun _ => rfl⟩
  · obtain ⟨x, rfl⟩ := mem_lowercaseHex hc
    exact hexDigit_range x
  · obtain ⟨hhigh, hlow⟩ := flatMap_pair_getElem? (fun b : Byte => hexDigit (b.extractLsb' 4 4))
      (fun b => hexDigit (b.extractLsb' 0 4)) d.toList k
    have hbyte : d.toList[k.val]? = some d[k] := by simp
    rw [hbyte] at hhigh hlow
    exact ⟨hhigh, hlow⟩
  · rw [← hexDigit_toNat, Char.ofNat_toNat]

end Sys2Proof
end

section
/-! PROOFS of 45_digest_and_hash.md R199: how long the unit is busy, how `H` follows the blocks that LOAD sees, and the hash that a
well-formed bracket leaves at the port. -/

namespace Sys2Proof.Machine

/-! ## Parts of a run -/

/-- The first step of a run that gets through. -/
theorem run_succ_split {k : Nat} {s t : State} (h : run (k + 1) s = .next t) :
    ∃ u : State, step s = .next u ∧ run k u = .next t := by
  rw [run] at h
  split at h
  case h_1 u hu => exact ⟨u, hu, h⟩
  case h_2 => cases h
  case h_3 => cases h

/-- A run that gets through gets through its first part. -/
theorem run_split {j k : Nat} {s t : State} (h : run (j + k) s = .next t) :
    ∃ u : State, run j s = .next u ∧ run k u = .next t := by
  induction j generalizing s with
  | zero => exact ⟨s, rfl, by rwa [Nat.zero_add] at h⟩
  | succ j ih =>
    rw [Nat.succ_add] at h
    obtain ⟨v, hstep, hrest⟩ := run_succ_split h
    obtain ⟨u, hfirst, hsecond⟩ := ih hrest
    exact ⟨u, (run_succ j hstep).trans hfirst, hsecond⟩

/-- A run transfers what its two parts transfer. -/
theorem transfers_add {j : Nat} (k : Nat) {s t : State} (h : run j s = .next t) :
    transfers (j + k) s = transfers j s ++ transfers k t := by
  induction j generalizing s with
  | zero => cases h; rw [Nat.zero_add]; rfl
  | succ j ih =>
    obtain ⟨u, hstep, hrun⟩ := run_succ_split h
    rw [Nat.succ_add, transfers_succ _ hstep, transfers_succ _ hstep, ih hrun, List.append_assoc]

theorem loadedBlocks_succ {s t : State} (k : Nat) (hr : s.pins.rst = false) (h : step s = .next t) :
    loadedBlocks (k + 1) s = s.loadNow ++ loadedBlocks k t := by
  rw [loadedBlocks, h, State.loadNow]
  simp only [hr, and_true]

/-- Only reset leaves FAULT (60_exceptions.md R247). -/
theorem run_in_fault {k : Nat} {s t : State} (hp : s.PH = .fault) (hr : NoReset k s) (h : run k s = .next t) :
    t.PH = .fault := by
  induction k generalizing s with
  | zero => cases h; exact hp
  | succ k ih =>
    have hstep := step_in_fault hp hr.head
    rw [run_succ k hstep] at h
    exact ih (s := s.nextEdge) hp (hr.tail (step_inputs hstep)) h

/-- A run that transfers nothing leaves a ready state as it is (46_host_commands.md R215). -/
theorem State.Ready.run_waiting {k : Nat} {s : State} (h : s.Ready) (hr : NoReset k s) (ht : transfers k s = []) :
    run k s = .next { s with inputs := s.inputs.drop k } := by
  induction k generalizing s with
  | zero => rfl
  | succ k ih =>
    have hs : s.transferred = none := Option.toList_eq_nil_iff.1 (List.append_eq_nil_iff.1 ht).1
    have hstep := h.step_waiting hr.head hs
    rw [transfers_succ k hstep, hs] at ht
    rw [run_succ k hstep, ih (s := s.nextEdge) h (hr.tail (step_inputs hstep)) ht, State.nextEdge_inputs, List.drop_tail]
    rfl

/-! ## How long the unit is busy (46_host_commands.md R212, R219; log entry 11) -/

/-- The busy steps after FEED: a second padded block, if the trailer is due. -/
def Stage.stepsAfterFeed (ps : Stage) : Nat :=
  if ps = .trailerDue then 67 else 0

/-- The busy steps that a state has before it. -/
def State.busyLeft (s : State) : Nat :=
  match s.PH with
  | .pad => if s.ps = .trailerDue then 67 else tailSteps s.CNT.toNat
  | .load => 66 + s.ps.stepsAfterFeed
  | .round => 65 - s.t.toNat + s.ps.stepsAfterFeed
  | .feed => 1 + s.ps.stepsAfterFeed
  | .idle | .recv | .done | .fault => 0

theorem State.busyLeft_marker {s : State} (hp : s.PH = .pad) (hs : s.ps = .markerDue) :
    s.busyLeft = tailSteps s.CNT.toNat := by
  simp [State.busyLeft, hp, hs]

theorem State.busyLeft_trailer {s : State} (hp : s.PH = .pad) (hs : s.ps = .trailerDue) : s.busyLeft = 67 := by
  simp [State.busyLeft, hp, hs]

theorem State.busyLeft_load {s : State} (hp : s.PH = .load) : s.busyLeft = 66 + s.ps.stepsAfterFeed := by
  simp [State.busyLeft, hp]

theorem State.busyLeft_round {s : State} (hp : s.PH = .round) :
    s.busyLeft = 65 - s.t.toNat + s.ps.stepsAfterFeed := by
  simp [State.busyLeft, hp]

theorem State.busyLeft_feed {s : State} (hp : s.PH = .feed) : s.busyLeft = 1 + s.ps.stepsAfterFeed := by
  simp [State.busyLeft, hp]

/-- A state with busy steps before it is busy. -/
theorem State.busy_of_busyLeft {s : State} (h : s.busyLeft ≠ 0) : s.PH.ready = false := by
  unfold State.busyLeft at h
  split at h
  case h_5 | h_6 | h_7 | h_8 => exact absurd rfl h
  all_goals rename_i hp; rw [hp]; rfl

/-- Each micro-operation takes one of the busy steps. -/
theorem MicroEffect.busyLeft_eq {s t : State} (h : MicroEffect s t) : s.busyLeft = t.busyLeft + 1 := by
  cases h with
  | padMarker hp hs =>
    rw [State.busyLeft_marker hp hs, State.busyLeft_load (padMarker_PH s), padMarker_ps, low6_toNat, tailSteps]
    split_ifs <;> rfl
  | padTrailer hp hs => rw [State.busyLeft_trailer hp hs, State.busyLeft_load (padTrailer_PH s), padTrailer_ps]; rfl
  | load hp =>
    rw [State.busyLeft_load hp, State.busyLeft_round (loadBlock_PH s), loadBlock_t, loadBlock_ps, BitVec.toNat_ofNat]
    omega
  | round hp =>
    have hlt := s.t.isLt
    obtain hlast | hmore : s.t.toNat = 63 ∨ s.t.toNat < 63 := by omega
    · rw [State.busyLeft_round hp, State.busyLeft_feed (roundStep_last hlast).2, roundStep_ps]
      omega
    · obtain ⟨hindex, hphase⟩ := roundStep_more hmore
      rw [State.busyLeft_round hp, State.busyLeft_round hphase, hindex, roundStep_ps]
      omega
  | feed p hp hs =>
    rw [State.busyLeft_feed hp]
    obtain ⟨ho, rfl⟩ | ⟨ho, rfl⟩ | ⟨ho, rfl⟩ := phaseAfterFeed_cases hs
    · rw [ho]; rfl
    · rw [State.busyLeft_trailer (feedForward_PH _ s) ho, ho]; rfl
    · rw [ho]; rfl

/-- A busy step performs a micro-operation. -/
theorem step_busy_effect {s t : State} (hb : s.PH.ready = false) (hr : s.pins.rst = false) (h : step s = .next t) :
    MicroEffect s.nextEdge t := by
  cases step_cases h with
  | micro _ _ e => exact e
  | reset hrst => rw [hr] at hrst; cases hrst
  | quiet _ hready | command _ hready => rw [hb] at hready; cases hready
  | discarded _ hp => rw [hp] at hb; cases hb

/-- While busy steps are left, every step is one of them and transfers nothing. -/
theorem run_busy {k : Nat} {s t : State} (hk : k ≤ s.busyLeft) (hr : NoReset k s) (h : run k s = .next t) :
    s.busyLeft = t.busyLeft + k ∧ transfers k s = [] := by
  induction k generalizing s with
  | zero => cases h; exact ⟨rfl, rfl⟩
  | succ k ih =>
    have hb : s.PH.ready = false := s.busy_of_busyLeft (by omega)
    obtain ⟨u, hstep, hrun⟩ := run_succ_split h
    have hone : s.busyLeft = u.busyLeft + 1 := (step_busy_effect hb hr.head hstep).busyLeft_eq
    obtain ⟨hleft, htransfers⟩ := ih (by omega) (hr.tail (step_inputs hstep)) hrun
    refine ⟨by omega, ?_⟩
    rw [transfers_succ k hstep, transferred_busy hb, htransfers]
    rfl

/-! ## The chaining value (10_state.md R21, 45_digest_and_hash.md R198) -/

/-- The chaining value after the blocks `bs`, from `S` on. -/
def chainOver (S : Words8) (bs : List Block) : Words8 :=
  bs.foldl (fun S b => compress S (expand b)) S

theorem chainOver_append (S : Words8) (bs cs : List Block) :
    chainOver S (bs ++ cs) = chainOver (chainOver S bs) cs :=
  List.foldl_append

/-- `chainAfter` goes over the blocks of the padded message in order (R198). -/
theorem chainAfter_eq_chainOver (p : List Byte) (n : Nat) :
    chainAfter p n = chainOver IV ((List.range n).map (blockOf p)) := by
  induction n with
  | zero => rfl
  | succ n ih => rw [List.range_succ, List.map_append, chainOver_append, ← ih]; rfl

/-- `S` is the chaining value of all blocks that LOAD has seen: `H` holds it, or, while a block is in ROUND or FEED, will hold it
when that block is done; `l` is the state in which it was loaded. -/
inductive Chained (S : Words8) (s : State) : Prop
  | settled (hr : s.PH ≠ .round) (hf : s.PH ≠ .feed) (hH : s.H = S)
  | inProgress (l : State) (j : Nat) (hj : j ≤ 64) (hdone : RoundsDone l j hj s) (hdue : j < 64 → RoundDue l.BUF j s)
      (hS : compress l.H (expand l.BUF) = S)

/-- Outside ROUND and FEED it is `H` that holds the chaining value. -/
theorem Chained.H_eq {S : Words8} {s : State} (h : Chained S s) (hr : s.PH ≠ .round) (hf : s.PH ≠ .feed) : s.H = S := by
  cases h with
  | settled _ _ hH => exact hH
  | inProgress l j hj hdone =>
    have hphase := hdone.phase
    split_ifs at hphase
    · exact absurd hphase hr
    · exact absurd hphase hf

/-- In PAD and in the ready phases a step that leaves `H` alone, and starts no round, leaves the chaining value alone. -/
theorem Chained.of_H_eq {S : Words8} {s t : State} (h : Chained S s) (hp : s.PH = .pad ∨ s.PH.ready = true)
    (ht : t.H = s.H ∧ t.PH ≠ .round ∧ t.PH ≠ .feed) : Chained (chainOver S s.loadNow) t := by
  obtain ⟨hH, hr, hf⟩ := ht
  have hne {p : Phase} (hpad : p ≠ .pad) (hbusy : p.ready = false) : s.PH ≠ p := by
    rintro rfl
    obtain hp | hp := hp
    · exact hpad hp
    · rw [hbusy] at hp
      cases hp
  rw [State.loadNow_of_ne (hne nofun rfl)]
  exact .settled hr hf (hH.trans (h.H_eq (hne nofun rfl) (hne nofun rfl)))

/-- LOAD starts the block that it sees. -/
theorem Chained.after_load {S : Words8} {s : State} (h : Chained S s) (hp : s.PH = .load) :
    Chained (chainOver S s.loadNow) (loadBlock s.nextEdge) := by
  refine .inProgress s 0 (Nat.zero_le 64) (loadBlock_roundsDone s) (fun _ => loadBlock_roundDue s.nextEdge) ?_
  rw [State.loadNow, if_pos hp, h.H_eq (by rw [hp]; nofun) (by rw [hp]; nofun)]
  rfl

/-- ROUND goes on with it. -/
theorem Chained.after_round {S : Words8} {s : State} (h : Chained S s) (hp : s.PH = .round) :
    Chained (chainOver S s.loadNow) (roundStep s.nextEdge) := by
  rw [State.loadNow_of_ne (by rw [hp]; nofun)]
  cases h with
  | settled hr => exact absurd hp hr
  | inProgress l j hj hdone hdue hS =>
    have hj' : j < 64 := by
      by_contra hlast
      rw [hdone.phase, if_neg hlast] at hp
      cases hp
    exact .inProgress l (j + 1) hj' (hdone.roundStep (hdue hj') hj')
      (fun hnext => (hdue hj').nextEdge.roundStep (by omega)) hS

/-- FEED ends it. -/
theorem Chained.after_feed {S : Words8} {s : State} {p : Phase} (h : Chained S s) (hp : s.PH = .feed)
    (hs : phaseAfterFeed s.ps = some p) : Chained (chainOver S s.loadNow) (feedForward p s.nextEdge) := by
  rw [State.loadNow_of_ne (by rw [hp]; nofun)]
  have hnext : p ≠ .round ∧ p ≠ .feed := by
    obtain ⟨-, rfl⟩ | ⟨-, rfl⟩ | ⟨-, rfl⟩ := phaseAfterFeed_cases hs <;> decide
  cases h with
  | settled _ hf => exact absurd hp hf
  | inProgress l j hj hdone hdue hS =>
    obtain rfl : j = 64 := by
      by_contra hmore
      rw [hdone.phase, if_pos (by omega)] at hp
      cases hp
    refine .settled hnext.1 hnext.2 ?_
    rw [feedForward_H, State.nextEdge_H, State.nextEdge_V, hdone.chain, hdone.words, ← hS]
    rfl

/-- No command but INIT writes `H` or starts a round. -/
theorem CommandEffect.keeps_H {s t : State} {i : Instr} (h : CommandEffect s i t) (hi : i ≠ .init) :
    t.H = s.H ∧ t.PH ≠ .round ∧ t.PH ≠ .feed := by
  cases h with
  | init => exact absurd rfl hi
  | data b hp =>
    refine ⟨appendByte_H b s, ?_⟩
    rw [appendByte_PH, hp]
    split_ifs <;> decide
  | final => exact ⟨rfl, nofun, nofun⟩
  | overflow | noMessageData | noMessageFinal | rsv => exact ⟨rfl, nofun, nofun⟩

/-- Nor does a step in a ready phase, unless it transfers INIT. -/
theorem step_ready_keeps_H {s t : State} (hb : s.PH.ready = true) (hr : s.pins.rst = false)
    (hi : s.transferred ≠ some .init) (h : step s = .next t) : t.H = s.H ∧ t.PH ≠ .round ∧ t.PH ≠ .feed := by
  have hkeep {p : Phase} (hp : p.ready = true) : p ≠ .round ∧ p ≠ .feed := by
    constructor <;> rintro rfl <;> cases hp
  cases step_cases h with
  | reset hrst => rw [hr] at hrst; cases hrst
  | micro _ hbusy => rw [hb] at hbusy; cases hbusy
  | quiet => exact ⟨rfl, hkeep hb⟩
  | discarded => exact ⟨rfl, hkeep hb⟩
  | command _ _ hv e =>
    refine e.keeps_H fun hinit => hi ?_
    simp [State.transferred, State.inReady, hr, hb, hv, hinit]

/-- A step that neither resets nor transfers INIT takes the chaining value on by the block that it loads, if it is a LOAD step. -/
theorem Chained.step {S : Words8} {s t : State} (h : Chained S s) (hr : s.pins.rst = false)
    (hi : s.transferred ≠ some .init) (hs : step s = .next t) : Chained (chainOver S s.loadNow) t := by
  cases hb : s.PH.ready with
  | true => exact h.of_H_eq (.inr hb) (step_ready_keeps_H hb hr hi hs)
  | false =>
    cases step_busy_effect hb hr hs with
    | padMarker hp => exact h.of_H_eq (.inl hp) ⟨padMarker_H _, by rw [padMarker_PH]; decide⟩
    | padTrailer hp => exact h.of_H_eq (.inl hp) ⟨padTrailer_H _, by rw [padTrailer_PH]; decide⟩
    | load hp => exact h.after_load hp
    | round hp => exact h.after_round hp
    | feed p hp hps => exact h.after_feed hp hps

/-- A run takes it on by the blocks that it loads. -/
theorem Chained.run {k : Nat} {S : Words8} {s t : State} (h : Chained S s) (hr : NoReset k s)
    (hi : .init ∉ transfers k s) (hrun : run k s = .next t) : Chained (chainOver S (loadedBlocks k s)) t := by
  induction k generalizing S s with
  | zero => cases hrun; exact h
  | succ k ih =>
    obtain ⟨u, hstep, hrun⟩ := run_succ_split hrun
    rw [transfers_succ k hstep, List.mem_append, not_or, Option.mem_toList] at hi
    rw [loadedBlocks_succ k hr.head hstep, chainOver_append]
    exact ih (h.step hr.head hi.1 hstep) (hr.tail (step_inputs hstep)) hi.2 hrun

/-- From a ready state on, INIT opens the chain with `IV` (46_host_commands.md R211). -/
theorem State.Ready.chained {k : Nat} {s t : State} {l : List Instr} (h : s.Ready) (hr : NoReset k s)
    (ht : transfers k s = .init :: l) (hl : .init ∉ l) (hrun : run k s = .next t) :
    Chained (chainOver IV (loadedBlocks k s)) t := by
  induction k generalizing s with
  | zero => cases ht
  | succ k ih =>
    obtain ⟨u, hstep, hrun⟩ := run_succ_split hrun
    have hr' := hr.tail (step_inputs hstep)
    rw [loadedBlocks_succ k hr.head hstep, State.loadNow_of_ne h.PH_ne_load, List.nil_append]
    rw [transfers_succ k hstep] at ht
    cases hs : s.transferred with
    | none =>
      rw [hs] at ht
      obtain rfl := Host.Outcome.next.inj (hstep.symm.trans (h.step_waiting hr.head hs))
      exact ih (s := s.nextEdge) h hr' ht hrun
    | some i =>
      rw [hs] at ht
      obtain ⟨rfl, hrest⟩ := List.cons.inj ht
      rw [step_transferred hs] at hstep
      obtain rfl := Host.Outcome.next.inj (hstep.symm.trans (onTransfer_ready (s := s.nextEdge) _ h))
      exact Chained.run (.settled nofun nofun rfl) hr' (fun hmem => hl (hrest ▸ hmem)) hrun

/-! ## The hash (R198, R199) -/

/-- `hash` goes over all blocks of the padded message (R198). -/
theorem hash_of_pad {m p : List Byte} (hm : m.length < 2 ^ 61) (hp : pad m = some p) :
    Machine.hash m = some (finalize (chainAfter p (blockCount m.length))) := by
  have hblocks : p.length / 64 = blockCount m.length := by
    obtain rfl := Option.some.inj ((pad_eq_append_padTail hm).symm.trans hp)
    rw [List.length_append, padTail_length, zeroCount, blockCount]
    omega
  rw [Machine.hash, hp, Option.map_some, hblocks]

/-- INIT opens a bracket and stands nowhere else in it. -/
theorem init_notMem_dueAfter (m : List Byte) (c : Nat) : .init ∉ dueAfter m c := by
  intro h
  obtain h | h := List.mem_append.1 h
  · obtain ⟨_, -, h⟩ := List.mem_map.1 h
    cases h
  · cases List.mem_singleton.1 h

/-- The tail after FINAL is busy from its first step to its last, transfers nothing, and ends in DONE (R199 b). -/
theorem ClosedMessage.tail {m : List Byte} {s : State} (h : ClosedMessage m s) (hm : m.length < 2 ^ 61)
    (hr : NoReset (tailSteps m.length) s) :
    (∃ u : State, run (tailSteps m.length) s = .next u ∧ u.PH = .done) ∧ transfers (tailSteps m.length) s = [] ∧
      ∀ j : Nat, j < tailSteps m.length → ∃ v : State, run j s = .next v ∧ v.inReady = false := by
  obtain ⟨u, _, hdone, hfeeds, -⟩ := h.feeds hm hr
  have hleft : s.busyLeft = tailSteps m.length := by rw [State.busyLeft_marker h.phase h.stage, h.count]
  refine ⟨⟨u, hfeeds.run, hdone⟩, (run_busy hleft.ge hr hfeeds.run).2, fun j hj => ?_⟩
  obtain ⟨v, hv, -⟩ := run_split (Nat.add_sub_of_le hj.le ▸ hfeeds.run)
  obtain ⟨hsome, -⟩ := run_busy (hleft ▸ hj.le) (hr.mono hj.le) hv
  exact ⟨v, hv, v.busy_of_busyLeft (by omega)⟩

/-- In DONE after a bracket, the port shows the hash of its message (R199 c). -/
theorem State.Ready.digest_eq_hash {m p : List Byte} {k : Nat} {s u : State} (h : s.Ready) (hm : m.length < 2 ^ 61)
    (hp : pad m = some p) (hr : NoReset k s) (ht : transfers k s = bracket m) (hrun : run k s = .next u) (hu : u.PH = .done)
    (hblocks : loadedBlocks k s = (List.range (blockCount m.length)).map (blockOf p)) :
    ∃ d : Vector Byte 32, Machine.hash m = some d ∧ u.digest = some (digestOfBytes d) := by
  have hchain := (h.chained hr ht (init_notMem_dueAfter m 0) hrun).H_eq (by rw [hu]; nofun) (by rw [hu]; nofun)
  rw [hblocks, ← chainAfter_eq_chainOver] at hchain
  refine ⟨_, hash_of_pad hm hp, ?_⟩
  rw [digestOfBytes_finalize, ← hchain, State.digest, State.digestValid, hu]
  rfl

end Sys2Proof.Machine

namespace Sys2Proof

open Sys2Proof.Machine

/-- Settles O49: `H` follows the blocks of `pad(m)` that LOAD sees up to DONE, a fault would have stayed, and DONE holds the
digest for as long as nothing is transferred. -/
theorem unitComputesHash : Obligations.UnitComputesHash := by
  intro s m k hready hlen hr htransfers hleast
  have hm : m.length < 2 ^ 61 := by omega
  obtain ⟨p, hp, hblocks⟩ := padderFeedsTheBlocksOfPad s m k hready hlen hr htransfers hleast
  obtain ⟨t, hclosed, hopen⟩ := hready.feeds hm (hr.mono (Nat.le_add_right _ _)) ⟨htransfers, hleast⟩
  obtain ⟨⟨u, htail, hdone⟩, hquiet, hbusy⟩ := hclosed.tail hm (hr.after hopen.run)
  have hrun : run (k + tailSteps m.length) s = .next u := (run_add _ _ hopen.run).trans htail
  have hall : transfers (k + tailSteps m.length) s = bracket m := by
    rw [transfers_add _ hopen.run, htransfers, hquiet, List.append_nil]
  obtain ⟨d, hhash, hdigest⟩ := hready.digest_eq_hash hm hp hr hall hrun hdone hblocks
  refine ⟨fun j hj => ?_, fun j hj => ?_, u, d, hrun, hdone, hhash, hdigest, fun n hrn htn => ?_⟩
  · obtain ⟨r, hjr⟩ := Nat.exists_eq_add_of_le hj
    rw [hjr] at hr hrun
    obtain ⟨v, hv, hvu⟩ := run_split hrun
    refine ⟨v, hv, fun hfault => ?_⟩
    have hstays := run_in_fault hfault (hr.after hv) hvu
    rw [hdone] at hstays
    cases hstays
  · obtain ⟨v, hv, hvbusy⟩ := hbusy j hj
    exact ⟨v, (run_add k j hopen.run).trans hv, hvbusy⟩
  · have hnone : transfers n u = [] := by
      rw [transfers_add n hrun, hall] at htn
      exact List.append_right_eq_self.1 htn
    have hwait := State.Ready.run_waiting ⟨.inr (.inr hdone), fun h => by rw [hdone] at h; cases h⟩ (hrn.after hrun) hnone
    exact ⟨_, (run_add _ n hrun).trans hwait, by rw [State.digestValid, hdone]; rfl, rfl⟩

end Sys2Proof
end

section
/-! PROOFS of 46_host_commands.md: the commands in every phase, when one is transferred, the order of a step's tests, and the
transition table of the phase. -/

namespace Sys2Proof.Machine

/-! ## The phases (10_state.md R27) -/

theorem Phase.ready_iff (p : Phase) : p.ready = true ↔ p = .idle ∨ p = .recv ∨ p = .done ∨ p = .fault := by
  cases p <;> decide

/-- A busy phase selects a micro-operation (30_encoding.md R96). -/
theorem Phase.busy_decodes {p : Phase} (h : p.ready = false) : ∃ i : Instr, decodePhase p.code = some i := by
  rw [decodePhase_code]
  cases p with
  | pad | load | round | feed => exact ⟨_, rfl⟩
  | idle | recv | done | fault => cases h

/-- A state that takes commands has no message open, or is in RECV with `ps = 0`. -/
theorem State.Ready.closed_or_recv {s : State} (h : s.Ready) :
    (s.PH = .idle ∨ s.PH = .done) ∨ s.PH = .recv ∧ s.ps = .open := by
  obtain ⟨hp | hp | hp, ho⟩ := h
  · exact .inl (.inl hp)
  · exact .inr ⟨hp, ho hp⟩
  · exact .inl (.inr hp)

/-! ## The commands where they have their effect (R211 to R214, 60_exceptions.md R242 to R244) -/

theorem exec_init_ready {s : State} (h : s.Ready) : exec .init s = .next (openMessage s) :=
  onTransfer_ready _ h

theorem exec_rsv_ready {s : State} (h : s.Ready) : exec .rsv s = .next (raise .reservedOp s) :=
  onTransfer_ready _ h

theorem exec_final_recv {s : State} (hp : s.PH = .recv) (ho : s.ps = .open) : exec .final s = .next (closeMessage s) :=
  needsMessage_recv _ hp ho

/-- In a state that takes commands the opcode decides in the order of the tests of 60_exceptions.md R245. -/
theorem exec_command_ready {s : State} (h : s.Ready) (w : CmdWord) :
    exec (decodeCommand w) s =
      if opField w = 0b11#2 then .next (raise .reservedOp s)
      else if opField w = 0b00#2 then .next (openMessage s)
      else if s.PH = .idle ∨ s.PH = .done then .next (raise .noOpenMessage s)
      else if opField w = 0b01#2 then
        if s.CNT = maxCount then .next (raise .lenOverflow s) else .next (appendByte (dataField w) s)
      else .next (closeMessage s) := by
  obtain hop | hop | hop | hop := op_cases (opField w)
  · rw [decodeCommand_of_op_init hop, exec_init_ready h, hop]; rfl
  · rw [decodeCommand_of_op_data hop, hop]
    obtain hc | ⟨hp, ho⟩ := h.closed_or_recv
    · exact (needsMessage_closed _ hc).trans (if_pos hc).symm
    · exact (needsMessage_recv _ hp ho).trans (by rw [hp]; exact apply_ite Host.Outcome.next _ _ _)
  · rw [decodeCommand_of_op_final hop, hop]
    obtain hc | ⟨hp, ho⟩ := h.closed_or_recv
    · exact (needsMessage_closed _ hc).trans (if_pos hc).symm
    · exact (needsMessage_recv _ hp ho).trans (by rw [hp]; rfl)
  · rw [decodeCommand_of_op_rsv hop, exec_rsv_ready h, hop]; rfl

/-- The byte that fills the block starts its compression; after any other RECV goes on (R212). -/
theorem appendByte_PH_of_recv (b : Byte) {s : State} (h : s.PH = .recv) :
    (appendByte b s).PH = if s.CNT.toNat % 64 = 63 then .load else .recv := by
  simp only [appendByte_PH, low6_eq_last, h]

/-- The words from 0x300 up have the reserved opcode (30_encoding.md R92). -/
theorem opField_of_ge {w : CmdWord} (h : 0x300#10 ≤ w) : opField w = 0b11#2 := by
  apply BitVec.eq_of_toNat_eq
  have hw := w.isLt
  have hle : 0x300 ≤ w.toNat := h
  rw [opField, BitVec.extractLsb'_toNat, Nat.shiftRight_eq_div_pow]
  change _ = 3
  omega

/-! ## What is transferred (R210) -/

theorem transferred_eq_some_iff (s : State) (i : Instr) :
    s.transferred = some i ↔
      s.pins.rst = false ∧ s.pins.inValid = true ∧ s.PH.ready = true ∧ decodeCommand s.pins.inCmd = i := by
  simp [State.transferred, State.inReady, and_assoc]

/-- Nothing is transferred where nothing is offered. -/
theorem transferred_of_not_inValid {s : State} (h : s.pins.inValid = false) : s.transferred = none := by
  simp [State.transferred, h]

/-- An offered command runs in a state that takes commands. -/
theorem State.Ready.step_offered {s : State} (h : s.Ready) (hr : s.pins.rst = false) (hv : s.pins.inValid = true) :
    step s = exec (decodeCommand s.pins.inCmd) s.nextEdge :=
  step_transferred ((transferred_eq_some_iff s _).2 ⟨hr, hv, h.PH_ready, rfl⟩)

/-- A state past the tests for a busy phase and for FAULT takes commands, since RECV has `ps = 0`. -/
theorem State.ready_of_tests {s : State} (ho : s.PH = .recv → s.ps = .open) (hb : s.PH.ready = true)
    (hf : s.PH ≠ .fault) : s.Ready := by
  obtain hp | hp | hp | hp := (Phase.ready_iff s.PH).1 hb
  · exact ⟨.inl hp, ho⟩
  · exact ⟨.inr (.inl hp), ho⟩
  · exact ⟨.inr (.inr hp), ho⟩
  · exact absurd hp hf

/-! ## Edges without a transfer (R215) -/

/-- What holds of the inputs of the next `k + 1` edges, and of a host that offers nothing, holds of the coming edge's. -/
theorem State.pins_of_take {P : Pins → Prop} {k : Nat} {s : State} (h : ∀ p ∈ s.inputs.take (k + 1), P p)
    (hquiet : P quietPins) : P s.pins := by
  unfold State.pins
  cases hi : s.inputs with
  | nil => exact hquiet
  | cons p rest => exact h p (by rw [hi]; exact List.mem_cons_self)

end Sys2Proof.Machine

namespace Sys2Proof

open Sys2Proof.Machine

/-- Settles O10: behind the tests for reset, a busy phase, no offer and FAULT, the state takes commands, and the opcode decides as
60_exceptions.md R245 has it. -/
theorem stepOrderOfTests : Obligations.StepOrderOfTests := by
  intro s ho
  by_cases hrst : s.pins.rst = true
  · rw [if_pos hrst, step_reset hrst]
  have hr : s.pins.rst = false := eq_false_of_ne_true hrst
  rw [if_neg hrst]
  cases hb : s.PH.ready with
  | false =>
    cases hp : s.PH with
    | pad | load | round | feed => exact step_micro hr (by rw [hp]; rfl)
    | idle | recv | done | fault => rw [hp] at hb; cases hb
  | true =>
    have hnot {p : Phase} (h : p.ready = false) : s.PH ≠ p := fun hp => by rw [hp, h] at hb; cases hb
    rw [if_neg (hnot (p := .pad) rfl), if_neg (hnot (p := .load) rfl), if_neg (hnot (p := .round) rfl),
      if_neg (hnot (p := .feed) rfl)]
    by_cases hv : s.pins.inValid = false
    · rw [if_pos hv, step_quiet hb ho hr hv]
    by_cases hf : s.PH = .fault
    · rw [if_neg hv, if_pos hf, step_in_fault hf hr]
    have hready : s.Ready := s.ready_of_tests ho hb hf
    rw [if_neg hv, if_neg hf, hready.step_offered hr (Bool.eq_true_of_not_eq_false hv)]
    exact exec_command_ready (s := s.nextEdge) hready _

/-- Settles O17: what is transferred is read off the ports and the phase; a busy phase decodes its code and not the port. -/
theorem busyUnitIgnoresThePort : Obligations.BusyUnitIgnoresThePort := by
  refine ⟨fun s i => ?_, fun s p q rest hb hp hq => ?_, fun s w hb => exec_command_ignored w (.inl hb)⟩
  · rw [transferred_eq_some_iff, Phase.ready_iff]
  · obtain ⟨i, hi⟩ := Phase.busy_decodes hb
    have hstep {r : Pins} (hr : r.rst = false) : step { s with inputs := r :: rest } = exec i { s with inputs := rest } :=
      step_micro (s := { s with inputs := r :: rest }) hr hi
    rw [hstep hp, hstep hq]

/-- Settles O18, by induction on the number of edges: the first one only uses up its inputs. -/
theorem waitingChangesNothing : Obligations.WaitingChangesNothing := by
  intro k
  induction k with
  | zero => exact fun s _ _ _ => rfl
  | succ k ih =>
    intro s hp ho hq
    obtain ⟨hr, hv⟩ := s.pins_of_take hq ⟨rfl, rfl⟩
    have hrest : ∀ p ∈ s.nextEdge.inputs.take k, p.rst = false ∧ p.inValid = false := fun p hmem =>
      hq p (List.mem_of_mem_tail (by rw [List.tail_take_eq_take_tail]; exact hmem))
    rw [run_succ k (step_quiet hp ho hr hv), ih s.nextEdge hp ho hrest, State.nextEdge_inputs, List.drop_tail]
    rfl

/-- Settles O35: each of the transitions that a step can take is the table's row for its phase and what it transfers. -/
theorem phaseTransitionTable : Obligations.PhaseTransitionTable := by
  intro s t h
  cases step_cases h with
  | reset hr => rw [if_pos hr]; exact resetEdge_PH _
  | micro hr hb e =>
    rw [if_neg (ne_true_of_eq_false hr)]
    cases e with
    | padMarker hp => rw [show s.PH = .pad from hp]; exact padMarker_PH _
    | padTrailer hp => rw [show s.PH = .pad from hp]; exact padTrailer_PH _
    | load hp => rw [show s.PH = .load from hp]; exact loadBlock_PH _
    | round hp =>
      rw [show s.PH = .round from hp]
      by_cases hlast : s.t.toNat = 63
      · rw [if_pos hlast]; exact (roundStep_last (s := s.nextEdge) hlast).2
      · rw [if_neg hlast]; exact (roundStep_more (s := s.nextEdge) (Nat.lt_of_le_of_ne (Nat.le_of_lt_succ s.t.isLt) hlast)).2
    | feed p hp hs =>
      rw [show s.PH = .feed from hp]
      obtain ⟨ho, rfl⟩ | ⟨ho, rfl⟩ | ⟨ho, rfl⟩ := phaseAfterFeed_cases hs
      all_goals rw [show s.ps = _ from ho]; exact feedForward_PH _ _
  | quiet hr hready hv =>
    rw [if_neg (ne_true_of_eq_false hr), transferred_of_not_inValid hv]
    obtain hp | hp | hp | hp := (Phase.ready_iff s.PH).1 hready
    all_goals rw [hp]; exact hp
  | discarded hr hp =>
    rw [if_neg (ne_true_of_eq_false hr), hp]
    exact hp
  | command hr hready hv e =>
    rw [if_neg (ne_true_of_eq_false hr), (transferred_eq_some_iff s _).2 ⟨hr, hv, hready, rfl⟩]
    generalize decodeCommand s.pins.inCmd = i at e
    cases e with
    | init he =>
      obtain hp | hp | hp := he.1
      all_goals rw [show s.PH = _ from hp]; exact openMessage_PH _
    | rsv he =>
      obtain hp | hp | hp := he.1
      all_goals rw [show s.PH = _ from hp]; exact ⟨rfl, rfl⟩
    | data b hp ho hc =>
      have hnext := appendByte_PH_of_recv b hp
      rw [show s.PH = .recv from hp, if_neg (mt (cnt_eq_max s.CNT).2 hc)]
      by_cases hfull : s.CNT.toNat % 64 = 63
      · rw [if_pos hfull]; exact hnext.trans (if_pos hfull)
      · rw [if_neg hfull]; exact hnext.trans (if_neg hfull)
    | overflow b hp ho hc =>
      rw [show s.PH = .recv from hp, if_pos ((cnt_eq_max s.CNT).1 hc)]
      exact ⟨rfl, rfl⟩
    | final hp => rw [show s.PH = .recv from hp]; exact closeMessage_PH _
    | noMessageData b hp | noMessageFinal hp =>
      obtain hp | hp := hp
      all_goals rw [show s.PH = _ from hp]; exact ⟨rfl, rfl⟩

/-- Settles O11: a ready state takes INIT, the others ignore it. -/
theorem initOpensEmptyMessage : Obligations.InitOpensEmptyMessage := by
  refine fun s => ⟨fun hready => ⟨exec_init_ready hready, fun t ht => ?_⟩, fun h => onTransfer_ignored _ h.symm⟩
  rw [exec_init_ready hready] at ht
  cases ht
  rfl

/-- Settles O15: RECV with `ps = 0` takes FINAL, FAULT and the busy phases ignore it. -/
theorem finalStartsTheTail : Obligations.FinalStartsTheTail :=
  fun _ => ⟨exec_final_recv, fun h => onTransfer_ignored _ h.symm⟩

/-- Settles O16: a state that takes commands takes RSV's fault, FAULT discards it, and the words from 0x300 up are its own. -/
theorem reservedOpcodeFaults : Obligations.ReservedOpcodeFaults :=
  fun _ => ⟨exec_rsv_ready, fun h => onTransfer_ignored _ (.inr h), fun _ hw => decodeCommand_of_op_rsv (opField_of_ge hw)⟩

/-- Settles O19: FAULT counts as ready and ignores each command; an edge without reset only uses up its inputs. -/
theorem faultDiscardsEveryCommand : Obligations.FaultDiscardsEveryCommand := by
  intro s hp
  refine ⟨by rw [State.inReady, hp]; rfl, fun w => exec_command_ignored w (.inr hp), step_in_fault hp, fun hr => ?_⟩
  exact ⟨resetEdge s.nextEdge, step_reset hr, resetEdge_PH _⟩

end Sys2Proof
end

section
/-! PROOFS of 60_exceptions.md: what raises each of the three faults, what a step that enters FAULT writes, and how long `FC`
stays. -/

namespace Sys2Proof.Machine

/-! ## The ports in FAULT (10_state.md R34) -/

@[simp] theorem raise_faultFlag (code : FaultCode) (s : State) : (raise code s).faultFlag = true := rfl
@[simp] theorem raise_digestValid (code : FaultCode) (s : State) : (raise code s).digestValid = false := rfl
@[simp] theorem raise_inReady (code : FaultCode) (s : State) : (raise code s).inReady = true := rfl

/-- The code 0 is that of no fault (R241). -/
theorem FaultCode.code_eq_zero_iff (c : FaultCode) : c.code = 0 ↔ c = .clear := by
  cases c <;> decide

/-! ## The commands that fault (R243, R244) -/

theorem exec_data_closed {s : State} (b : Byte) (h : s.PH = .idle ∨ s.PH = .done) :
    exec (.data b) s = .next (raise .noOpenMessage s) :=
  needsMessage_closed _ h

theorem exec_final_closed {s : State} (h : s.PH = .idle ∨ s.PH = .done) : exec .final s = .next (raise .noOpenMessage s) :=
  needsMessage_closed _ h

theorem exec_data_at_limit {s : State} (b : Byte) (hp : s.PH = .recv) (ho : s.ps = .open) (hlim : s.CNT = maxCount) :
    exec (.data b) s = .next (raise .lenOverflow s) :=
  (needsMessage_recv _ hp ho).trans (by rw [if_pos hlim])

/-- The longest message's length in bits: all ones but the three low bits. -/
theorem bitLength_maxCount : bitLength maxCount = 0xFFFFFFFFFFFFFFF8#64 := by decide

/-! ## Entering FAULT (R240, R246) -/

/-- The causes of the three faults: the command, where it is transferred, and the code it raises (R242 to R244). -/
inductive FaultCause (s : State) : Instr → FaultCode → Prop
  | reserved (h : s.Ready) : FaultCause s .rsv .reservedOp
  | noMessageData (b : Byte) (h : s.PH = .idle ∨ s.PH = .done) : FaultCause s (.data b) .noOpenMessage
  | noMessageFinal (h : s.PH = .idle ∨ s.PH = .done) : FaultCause s .final .noOpenMessage
  | overflow (b : Byte) (h : s.PH = .recv) (hc : s.CNT = maxCount) : FaultCause s (.data b) .lenOverflow

theorem FaultCause.code_ne_clear {s : State} {i : Instr} {code : FaultCode} (h : FaultCause s i code) : code ≠ .clear := by
  cases h <;> decide

/-- No micro-operation faults. -/
theorem MicroEffect.PH_ne_fault {s t : State} (h : MicroEffect s t) : t.PH ≠ .fault := by
  cases h with
  | padMarker | padTrailer | load => simp
  | round => obtain hp | hp := roundStep_PH_cases s <;> rw [hp] <;> decide
  | feed p _ hs => obtain ⟨-, rfl⟩ | ⟨-, rfl⟩ | ⟨-, rfl⟩ := phaseAfterFeed_cases hs <;> simp

/-- A command that leads to FAULT has raised a fault, for one of the causes. -/
theorem CommandEffect.fault_entry {s t : State} {i : Instr} (h : CommandEffect s i t) (ht : t.PH = .fault) :
    ∃ code : FaultCode, FaultCause s i code ∧ t = raise code s := by
  cases h with
  | init | final => cases ht
  | data b hp =>
    rw [appendByte_PH_of_recv b hp] at ht
    split at ht <;> cases ht
  | overflow b hp _ hc => exact ⟨_, .overflow b hp hc, rfl⟩
  | noMessageData b hp => exact ⟨_, .noMessageData b hp, rfl⟩
  | noMessageFinal hp => exact ⟨_, .noMessageFinal hp, rfl⟩
  | rsv hready => exact ⟨_, .reserved hready, rfl⟩

/-- A step that enters FAULT transferred a command that raised a fault, for one of the causes. -/
theorem step_fault_entry {s t : State} (h : step s = .next t) (hs : s.PH ≠ .fault) (ht : t.PH = .fault) :
    ∃ (i : Instr) (code : FaultCode),
      s.transferred = some i ∧ FaultCause s.nextEdge i code ∧ t = raise code s.nextEdge := by
  cases step_cases h with
  | reset => cases ht
  | micro _ _ e => exact absurd ht e.PH_ne_fault
  | quiet => exact absurd ht hs
  | discarded _ hp => exact absurd hp hs
  | command hr hready hv e =>
    obtain ⟨code, hcause, rfl⟩ := e.fault_entry ht
    exact ⟨_, code, (transferred_eq_some_iff s _).2 ⟨hr, hv, hready, rfl⟩, hcause, rfl⟩

end Sys2Proof.Machine

namespace Sys2Proof

open Sys2Proof.Machine

/-- Settles O20, by induction on the number of steps: each only uses up its inputs. -/
theorem firstFaultCodeStays : Obligations.FirstFaultCodeStays := by
  intro k
  induction k with
  | zero => exact fun s _ _ => rfl
  | succ k ih =>
    intro s hp hr
    rw [run_succ k (step_in_fault hp hr.head), ih s.nextEdge hp (hr.tail rfl), State.nextEdge_inputs, List.drop_tail]
    rfl

/-- Settles O21: such a step is `raise` with the code of a cause, and the ports show what `raise` wrote. -/
theorem faultEntryWritesCodeAndPhaseOnly : Obligations.FaultEntryWritesCodeAndPhaseOnly := by
  intro s t h hs ht
  obtain ⟨i, code, -, hcause, rfl⟩ := step_fault_entry h hs ht
  exact ⟨rfl, hcause.code_ne_clear, raise_faultFlag _ _, rfl, raise_digestValid _ _, raise_inReady _ _⟩

/-- Settles O22: a step that enters FAULT has one of the causes, and each of them is one of the three listed. -/
theorem faultCausesAreThree : Obligations.FaultCausesAreThree := by
  refine ⟨by decide, fun s hinv => ?_, fun s t h hs ht => ?_⟩
  · obtain ⟨hclear, -⟩ := hinv
    exact s.FC.code_eq_zero_iff.trans hclear
  · obtain ⟨i, code, htransferred, hcause, rfl⟩ := step_fault_entry h hs ht
    refine ⟨i, htransferred, ?_⟩
    cases hcause with
    | reserved hready => exact .inl ⟨rfl, rfl, hready.1⟩
    | noMessageData b hp => exact .inr (.inl ⟨rfl, .inr ⟨b, rfl⟩, hp⟩)
    | noMessageFinal hp => exact .inr (.inl ⟨rfl, .inl rfl, hp⟩)
    | overflow b hp hc => exact .inr (.inr ⟨rfl, ⟨b, rfl⟩, hp, (cnt_eq_max s.CNT).1 hc⟩)

/-- Settles O13: the count is `maxCount`, where DATA raises LenOverflow and FINAL closes the message as ever. -/
theorem dataAtLengthLimitFaults : Obligations.DataAtLengthLimitFaults := by
  intro b s hp ho hcnt
  have hlim : s.CNT = maxCount := (cnt_eq_max s.CNT).2 hcnt
  exact ⟨exec_data_at_limit b hp ho hlim, exec_final_recv hp ho, by rw [hlim, bitLength_maxCount]⟩

/-- Settles O14: without a message both commands raise NoOpenMessage, and FAULT shows no digest. -/
theorem dataOrFinalWithoutMessageFaults : Obligations.DataOrFinalWithoutMessageFaults := by
  refine fun b s hp => ⟨exec_data_closed b hp, exec_final_closed hp, fun i t hi h => ?_⟩
  have hraise : exec i s = .next (raise .noOpenMessage s) := by
    obtain rfl | rfl := hi
    · exact exec_data_closed b hp
    · exact exec_final_closed hp
  rw [hraise] at h
  cases h
  exact raise_digestValid _ _

end Sys2Proof
end

section
/-! PROOFS of 70_reset_and_hazards.md: the reset edge, and how long the digest is held. -/

namespace Sys2Proof.Machine

/-- No command is transferred at a reset edge, whatever is offered (R270). -/
theorem transferred_of_reset {s : State} (h : s.pins.rst = true) : s.transferred = none := by
  simp [State.transferred, h]

theorem State.digestValid_iff (s : State) : s.digestValid = true ↔ s.PH = .done := beq_iff_eq

theorem State.digestValid_eq_false_iff (s : State) : s.digestValid = false ↔ s.PH ≠ .done := beq_eq_false_iff_ne

theorem State.ready_of_done {s : State} (h : s.PH = .done) : s.Ready :=
  ⟨.inr (.inr h), fun hp => by rw [h] at hp; cases hp⟩

/-- No command leads to DONE: INIT opens a message, FINAL starts the tail, DATA stays in RECV or starts LOAD, and the rest fault. -/
theorem CommandEffect.PH_ne_done {s t : State} {i : Instr} (h : CommandEffect s i t) : t.PH ≠ .done := by
  cases h with
  | init | final | overflow | noMessageData | noMessageFinal | rsv => exact nofun
  | data b hp =>
    rw [appendByte_PH_of_recv b hp]
    split <;> exact nofun

/-- Where commands have their effect, an edge that resets or transfers one does not lead to DONE (R279). -/
theorem step_PH_ne_done {s t : State} (h : step s = .next t) (hs : s.Ready)
    (hend : s.pins.rst = true ∨ s.transferred ≠ none) : t.PH ≠ .done := by
  cases step_cases h with
  | reset => exact nofun
  | micro _ hbusy => rw [hs.PH_ready] at hbusy; cases hbusy
  | quiet hr _ hv =>
    obtain hrst | htransferred := hend
    · rw [hr] at hrst; cases hrst
    · exact absurd (transferred_of_not_inValid hv) htransferred
  | discarded _ hfault =>
    obtain ⟨hp, -⟩ := hs
    rw [hfault] at hp
    obtain hp | hp | hp := hp <;> cases hp
  | command _ _ _ e => exact e.PH_ne_done

end Sys2Proof.Machine

namespace Sys2Proof

open Sys2Proof.Machine

/-- Settles O28: reset is the first test of a step, and its edge writes the values of 10_state.md R37. -/
theorem resetWinsOverEverything : Obligations.ResetWinsOverEverything :=
  fun s hr => ⟨transferred_of_reset hr, resetEdge s.nextEdge, step_reset hr, resetEdge_PH _, resetEdge_t _, resetEdge_ps _,
    resetEdge_FC _, resetEdge_CNT _, resetEdge_inputs _⟩

/-- Settles O50: DONE waits unchanged while nothing is transferred, and neither a command nor a reset edge leads back to it. -/
theorem digestIsHeldUntilNextCommand : Obligations.DigestIsHeldUntilNextCommand := by
  refine fun s hp => ⟨fun k hr ht => ?_, fun t h hend => ?_⟩
  · exact ⟨_, (State.ready_of_done hp).run_waiting hr ht, (State.digestValid_iff _).2 hp, rfl⟩
  · exact t.digestValid_eq_false_iff.2 (step_PH_ne_done h (State.ready_of_done hp) hend)

end Sys2Proof
end

section
/-! PROOFS of 30_encoding.md R96 to R99: decoding answers on the well-formed encodings, and encoding is inverse to it but for the
data bits that a row ignores. -/

namespace Sys2Proof

/-! ## Command words as numbers (R91) -/

/-- The number of a command word: its opcode above its data. -/
theorem commandWord_toNat (op : BitVec 2) (d : Byte) : (commandWord op d).toNat = op.toNat * 256 + d.toNat :=
  Machine.toNat_append_byte op d

/-- The opcode of a command word is its number without the low byte. -/
theorem opField_toNat (w : CmdWord) : (opField w).toNat = w.toNat / 256 := by
  have hfields := congrArg BitVec.toNat (commandWord_fields w)
  have hdata := (dataField w).isLt
  rw [commandWord_toNat] at hfields
  omega

/-! ## The decoder, format by format -/

/-- A command word is decoded if it fits (R92). -/
theorem decode_command_eq_ok_iff (n : Nat) (i : Instr) :
    decode ⟨.cw10, n⟩ = .ok i ↔ n < 2 ^ 10 ∧ decodeCommand (BitVec.ofNat 10 n) = i := by
  simp only [decode]
  split_ifs with h
  · rw [Except.ok.injEq, and_iff_right h]
  · exact iff_of_false nofun fun hfits => h hfits.1

/-- A phase word is decoded by the code it has, if it fits (R96). -/
theorem decode_phase_eq_ok_iff (n : Nat) (i : Instr) :
    decode ⟨.ph3, n⟩ = .ok i ↔ n < 2 ^ 3 ∧ decodePhase (BitVec.ofNat 3 n) = some i := by
  simp only [decode]
  split_ifs with h
  · rw [and_iff_right h]
    cases decodePhase (BitVec.ofNat 3 n) with
    | none => exact iff_of_false nofun nofun
    | some j => rw [Except.ok.injEq, Option.some.injEq]
  · exact iff_of_false nofun fun hfits => h hfits.1

/-- A command word is well formed if it fits (R99). -/
theorem wf_command_iff (n : Nat) : (⟨.cw10, n⟩ : RawWord).wf = true ↔ n < 2 ^ 10 :=
  (Bool.and_eq_true_iff.trans (and_iff_left rfl)).trans decide_eq_true_iff

/-- A phase word is well formed if it fits and is a busy phase's (R96). -/
theorem wf_phase_iff (n : Nat) : (⟨.ph3, n⟩ : RawWord).wf = true ↔ n < 2 ^ 3 ∧ 2 ≤ n ∧ n ≤ 5 :=
  Bool.and_eq_true_iff.trans (and_congr decide_eq_true_iff
    (Bool.and_eq_true_iff.trans (and_congr decide_eq_true_iff decide_eq_true_iff)))

/-- The codes 2 to 5 are those that select a micro-operation (R96). -/
theorem decodePhase_isSome_iff (c : BitVec 3) : (∃ i : Instr, decodePhase c = some i) ↔ 2 ≤ c.toNat ∧ c.toNat ≤ 5 := by
  rw [← Option.isSome_iff_exists]
  revert c
  decide

/-- A micro-operation is encoded by the code that selects it (R96). -/
theorem encode_of_decodePhase {c : BitVec 3} {i : Instr} (h : decodePhase c = some i) : encode i = ⟨.ph3, c.toNat⟩ := by
  unfold decodePhase at h
  split_ifs at h with hc hc hc hc
  all_goals
    subst hc
    cases h
    rfl

/-- A command is encoded by the word it was decoded from, without the data bits that its row ignores (R93). -/
theorem encode_decodeCommand (w : CmdWord) :
    encode (decodeCommand w) = ⟨.cw10, if (opField w).toNat = 1 then w.toNat else (opField w).toNat * 256⟩ := by
  obtain h | h | h | h := op_cases (opField w)
  · rw [decodeCommand_of_op_init h, h]; rfl
  · rw [decodeCommand_of_op_data h, h, encode, ← h, commandWord_fields, h]; rfl
  · rw [decodeCommand_of_op_final h, h]; rfl
  · rw [decodeCommand_of_op_rsv h, h]; rfl

/-- A command's encoding is a command word. -/
theorem encode_of_isCommand {i : Instr} (h : i.isCommand = true) : encode i = ⟨.cw10, (encode i).bits⟩ := by
  have hformat : (encode i).format = .cw10 := eq_of_beq h
  rw [← hformat]

/-- A micro-operation's encoding is the code of a busy phase, which selects it (R96). -/
theorem encode_microOp {i : Instr} (h : i.isCommand = false) :
    ∃ p : Machine.Phase, encode i = ⟨.ph3, p.code.toNat⟩ ∧ decodePhase p.code = some i := by
  obtain rfl | rfl | rfl | rfl := (isCommand_eq_false_iff i).1 h
  · exact ⟨.pad, rfl, rfl⟩
  · exact ⟨.load, rfl, rfl⟩
  · exact ⟨.round, rfl, rfl⟩
  · exact ⟨.feed, rfl, rfl⟩

/-- The encoding of an instruction decodes to it. -/
theorem decode_encode (i : Instr) : decode (encode i) = .ok i := by
  cases h : i.isCommand with
  | true =>
    rw [encode_of_isCommand h, decode_command_eq_ok_iff]
    exact ⟨encode_bits_lt h, decodeCommand_encode h⟩
  | false =>
    obtain ⟨p, hencode, hdecode⟩ := encode_microOp h
    rw [hencode, decode_phase_eq_ok_iff]
    exact ⟨p.code.isLt, by rw [BitVec.ofNat_toNat, BitVec.setWidth_eq, hdecode]⟩

/-- Settles O5: a command by the fields of its word, a micro-operation by the code of its phase. -/
theorem decodeOfEncode : Obligations.DecodeOfEncode :=
  fun i _ => decode_encode i

/-- Settles O6: in both formats the bits must fit; any command word then selects a row, and a phase code if it is 2 to 5. -/
theorem decodeAnswersOnWellFormedOnly : Obligations.DecodeAnswersOnWellFormedOnly := by
  rintro ⟨format, n⟩
  cases format with
  | cw10 =>
    simp only [wf_command_iff, decode_command_eq_ok_iff, exists_and_left, exists_eq', and_true]
  | ph3 =>
    simp only [wf_phase_iff, decode_phase_eq_ok_iff, exists_and_left, decodePhase_isSome_iff, BitVec.toNat_ofNat]
    exact and_congr_right fun hfits => by rw [Nat.mod_eq_of_lt hfits]

/-- Settles O7: the opcode of a command word is its number without the low byte, which only DATA keeps. -/
theorem encodeOfDecode : Obligations.EncodeOfDecode := by
  rintro ⟨format, n⟩ i h
  cases format with
  | cw10 =>
    obtain ⟨hfits, rfl⟩ := (decode_command_eq_ok_iff n i).1 h
    have hn : (BitVec.ofNat 10 n).toNat = n := Nat.mod_eq_of_lt hfits
    rw [encode_decodeCommand, opField_toNat, hn]
    by_cases hdata : n / 256 = 1
    · rw [if_pos hdata, if_neg fun h => h.2 hdata]
    · rw [if_neg hdata, if_pos ⟨rfl, hdata⟩]
  | ph3 =>
    obtain ⟨hfits, hdecode⟩ := (decode_phase_eq_ok_iff n i).1 h
    have hn : (BitVec.ofNat 3 n).toNat = n := Nat.mod_eq_of_lt hfits
    rw [encode_of_decodePhase hdecode, hn]
    rfl

/-- Settles O4: words written out. -/
theorem sampleWordsDecode : Obligations.SampleWordsDecode := by
  unfold Obligations.SampleWordsDecode
  decide

end Sys2Proof
end

section
/-! PROOFS of 46_host_commands.md R216 and 10_state.md R20: which instruction an edge runs (also a placed one), where the model stops
(93_implementation_defined.md U8), and which registers a step writes. -/

namespace Sys2Proof.Machine

/-! ## The edge of a ready phase (46_host_commands.md R216) -/

/-- An offered command runs. -/
theorem step_command {s : State} (hr : s.pins.rst = false) (hb : s.PH.ready = true) (hv : s.pins.inValid = true) :
    step s = exec (decodeCommand s.pins.inCmd) s.nextEdge :=
  step_transferred ((transferred_eq_some_iff s _).2 ⟨hr, hv, hb, rfl⟩)

/-- Without one the edge is idle. -/
theorem step_no_command {s : State} (hr : s.pins.rst = false) (hb : s.PH.ready = true) (hv : s.pins.inValid = false) :
    step s = idleEdge s.nextEdge :=
  step_idle hr (by rw [fetch_ready hb, hv]; rfl)

/-! ## Where commands have effects -/

theorem State.Ready.PH_ne_fault {s : State} (h : s.Ready) : s.PH ≠ .fault := by
  obtain ⟨hp | hp | hp, -⟩ := h <;> rw [hp] <;> nofun

/-- FAULT discards every command (R218), so an effect of one is had elsewhere. -/
theorem CommandEffect.PH_ne_fault {s t : State} {i : Instr} (e : CommandEffect s i t) : s.PH ≠ .fault := by
  cases e with
  | init h | rsv h => exact h.PH_ne_fault
  | data _ hp | overflow _ hp | final hp => rw [hp]; nofun
  | noMessageData _ hp | noMessageFinal hp => obtain hp | hp := hp <;> rw [hp] <;> nofun

/-! ## Stops of the model (93_implementation_defined.md U8; log entry 6) -/

/-- No command is performed in RECV with another stage than 0. -/
theorem onTransfer_recvBroken {s : State} (hp : s.PH = .recv) (hs : s.ps ≠ .open) (e : Result) :
    onTransfer s e = .fault .recvStage := by
  simp [onTransfer, recvBroken, hp, hs]

theorem exec_command_recvBroken {s : State} (hp : s.PH = .recv) (hs : s.ps ≠ .open) (w : CmdWord) :
    exec (decodeCommand w) s = .fault .recvStage := by
  obtain hw | hw | hw | hw := decodeCommand_cases w <;> rw [hw] <;> exact onTransfer_recvBroken hp hs _

/-- Nor does an edge without a command pass there. -/
theorem idleEdge_recvBroken {s : State} (hp : s.PH = .recv) (hs : s.ps ≠ .open) : idleEdge s = .fault .recvStage :=
  if_pos (by simp [recvBroken, hp, hs])

theorem inPhase_other {s : State} {p : Phase} (h : s.PH ≠ p) (e : Result) : inPhase p s e = .fault .microOpOutsidePhase :=
  if_neg h

theorem exec_pad_stops {s : State} (hp : s.PH = .pad) (hs : s.ps = .open ∨ s.ps = .last) :
    exec .pad s = .fault .padStage := by
  refine (inPhase_eq _ hp).trans ?_
  obtain hs | hs := hs <;> rw [hs]

/-! ## Placing an instruction (log entry 10) -/

theorem phaseOfCode_code (p : Phase) : phaseOfCode p.code = p := by
  cases p <;> decide

/-- The code of a busy phase, placed, puts the sequencer there. -/
theorem placeWord_phase {p : Phase} {i : Instr} (h : decodePhase p.code = some i) (s : State) :
    decodeTableWord 8 p.code.toNat = some i ∧ s.withFetchWord 8 p.code.toNat = placePhase p s := by
  have hof : BitVec.ofNat 3 p.code.toNat = p.code := by rw [BitVec.ofNat_toNat, BitVec.setWidth_eq]
  have hdecode : decode ⟨.ph3, p.code.toNat⟩ = .ok i := (decode_phase_eq_ok_iff _ i).2 ⟨p.code.isLt, by rw [hof, h]⟩
  have htable : decodeTableWord 8 p.code.toNat = some i := by simp [decodeTableWord, formatOfWidth, hdecode]
  refine ⟨htable, ?_⟩
  simp [State.withFetchWord, placeWord, formatOfWidth, htable, hof, phaseOfCode_code]

/-- A command word, placed, is offered at the coming edge. -/
theorem placeWord_command {n : Nat} (h : n < 1024) (s : State) :
    s.withFetchWord 16 n = placeCommand (BitVec.ofNat 10 n) s := by
  simp [State.withFetchWord, placeWord, formatOfWidth, decodeTableWord_command h]

/-- It is offered in a ready phase, so it runs. -/
theorem step_placeCommand (w : CmdWord) (s : State) :
    step (placeCommand w s) = exec (decodeCommand w) (placeCommand w s).nextEdge := by
  refine step_command (s := placeCommand w s) rfl ?_ rfl
  rw [placeCommand_PH]
  split_ifs with hb
  · exact hb
  · rfl

/-- The micro-operation of a placed phase runs. -/
theorem step_placePhase {p : Phase} {i : Instr} (h : decodePhase p.code = some i) (s : State) :
    step (placePhase p s) = exec i (placePhase p s).nextEdge :=
  step_micro (s := placePhase p s) rfl h

end Sys2Proof.Machine

namespace Sys2Proof

open Sys2Proof.Machine

/-- Settles O8: the reset, a busy phase's code, the command of a ready phase, and the idle edge. -/
theorem stepRunsDecodedInstruction : Obligations.StepRunsDecodedInstruction :=
  fun _ => ⟨step_reset, fun hr => ⟨fun _ hi => step_micro hr hi, step_command hr, step_no_command hr⟩⟩

/-- Settles O9: a command is placed on the ports in a ready phase, a micro-operation as the phase of its code. -/
theorem placedInstructionRunsNext : Obligations.PlacedInstructionRunsNext := by
  intro s i nbits hbits
  cases h : i.isCommand with
  | true =>
    rw [h, if_pos rfl] at hbits
    subst hbits
    have hfits := encode_bits_lt h
    rw [decodeTableWord_command hfits, decodeCommand_encode h, placeWord_command hfits, step_placeCommand,
      decodeCommand_encode h]
    exact ⟨rfl, rfl⟩
  | false =>
    rw [h, if_neg Bool.false_ne_true] at hbits
    subst hbits
    obtain ⟨p, hencode, hdecode⟩ := encode_microOp h
    rw [hencode]
    obtain ⟨htable, hplaced⟩ := placeWord_phase hdecode s
    rw [hplaced]
    exact ⟨htable, step_placePhase hdecode s⟩

/-- Settles O23: the guards of RECV and of the micro-operations' phases, and the stages that PAD and FEED do not have. -/
theorem unreachableCombinationsStop : Obligations.UnreachableCombinationsStop := by
  refine fun s => ⟨exec_pad_stops, exec_feed_markerDue, fun hp hs => ⟨exec_command_recvBroken hp hs, fun hr => ?_⟩,
    fun hp => inPhase_other hp _, fun hp => inPhase_other hp _, fun hp => inPhase_other hp _, fun hp => inPhase_other hp _⟩
  have hb : s.PH.ready = true := by rw [hp]; rfl
  cases hv : s.pins.inValid with
  | false => rw [step_no_command hr hb hv]; exact idleEdge_recvBroken (s := s.nextEdge) hp hs
  | true => rw [step_command hr hb hv]; exact exec_command_recvBroken (s := s.nextEdge) hp hs _

/-- Settles O12: DATA's write, byte by byte and field by field. -/
theorem dataAppendsOneByte : Obligations.DataAppendsOneByte := by
  intro b s hp ho hcnt
  have hc : s.CNT ≠ maxCount := fun h => by rw [cnt_eq_max] at h; omega
  refine ⟨appendByte b s, exec_data_below_limit b hp ho hc, fun i => ?_, ?_, appendByte_PH_of_recv b hp, ?_⟩
  · rw [appendByte_BUF, ← low6_toNat]
    exact putByte_getElem b s.CNT s.BUF i i.isLt
  · rw [appendByte_CNT, cnt_succ_toNat _ hc]
  · simp

/-- Settles O36: each effect of a step writes the registers of its own row of the table. -/
theorem registersHaveOnlyTheirWriters : Obligations.RegistersHaveOnlyTheirWriters := by
  intro s t h hr
  cases step_cases h with
  | reset hrst => rw [hr] at hrst; cases hrst
  | micro _ _ e =>
    cases e with
    | padMarker hp | padTrailer hp | load hp | round hp | feed _ hp =>
      rw [State.nextEdge_PH] at hp
      simp [hp]
  | quiet | discarded => simp
  | command _ hb hv e =>
    have hf : s.PH ≠ .fault := e.PH_ne_fault
    have htr := (transferred_eq_some_iff s _).2 ⟨hr, hv, hb, rfl⟩
    generalize decodeCommand s.pins.inCmd = i at e htr
    cases e with
    | init | data | final => simp [htr]
    | overflow | noMessageData | noMessageFinal | rsv => simp [hf]

end Sys2Proof
end

section
/-! PROOFS of 10_state.md R34 and R37: the output ports, and the reset state. -/

namespace Sys2Proof.Machine

theorem State.digest_of_done {s : State} (h : s.PH = .done) : s.digest = some (digestBits s.H) :=
  if_pos (s.digestValid_iff.2 h)

theorem State.digest_of_ne {s : State} (h : s.PH ≠ .done) : s.digest = none :=
  if_neg (mt s.digestValid_iff.1 h)

end Sys2Proof.Machine

namespace Sys2Proof

open Sys2Proof.Machine

/-- Settles O30: each port by its definition in the phase. -/
theorem outputsFollowThePhase : Obligations.OutputsFollowThePhase :=
  fun s => ⟨Phase.ready_iff s.PH, s.digestValid_iff, beq_iff_eq, rfl, State.digest_of_done, State.digest_of_ne,
    fun hr => if_pos hr, fun hr => if_neg (ne_true_of_eq_false hr)⟩

/-- Settles O29: the fields of the reset state, and its ports. -/
theorem stateAfterReset : Obligations.StateAfterReset :=
  ⟨rfl, rfl, rfl, rfl, rfl, rfl⟩

end Sys2Proof
end

section
/-! PROOFS of 10_state.md section 7: the invariant of reachable states, that no step from such a state stops, and that a busy unit
is ready again. -/

namespace Sys2Proof.Machine

/-! ## Reading the invariant (R38) -/

/-- Outside FAULT the fault code is clear (R38 a). -/
theorem State.Inv.FC_eq {s : State} (h : s.Inv) (hp : s.PH ≠ .fault) : s.FC = .clear := by
  obtain ⟨hcode, -⟩ := h
  exact hcode.2 hp

/-- RECV has `ps = 0` (R38 c). -/
theorem State.Inv.recv_open {s : State} (h : s.Inv) (hp : s.PH = .recv) : s.ps = .open := by
  obtain ⟨-, hstage, -⟩ := h
  rw [hp] at hstage
  exact eq_of_beq hstage

/-- In PAD the marker or the trailer is due (R38 d). -/
theorem State.Inv.pad_due {s : State} (h : s.Inv) (hp : s.PH = .pad) : s.ps = .markerDue ∨ s.ps = .trailerDue := by
  obtain ⟨-, hstage, -⟩ := h
  rw [hp] at hstage
  exact (Bool.or_eq_true_iff.1 hstage).imp eq_of_beq eq_of_beq

/-- While a block is in progress the marker is not due (R38 e). -/
theorem State.Inv.block_stage {s : State} (h : s.Inv) (hp : s.PH = .load ∨ s.PH = .round ∨ s.PH = .feed) :
    s.ps ≠ .markerDue := by
  obtain ⟨-, hstage, -⟩ := h
  obtain hp | hp | hp := hp
  all_goals
    rw [hp] at hstage
    exact bne_iff_ne.1 hstage

theorem messageBlockBusy_iff (s : State) :
    messageBlockBusy s = true ↔ (s.PH = .load ∨ s.PH = .round ∨ s.PH = .feed) ∧ s.ps = .open := by
  simp [messageBlockBusy, or_assoc]

/-- A block of message bytes alone is a whole block (R38 i). -/
theorem State.Inv.messageBlock {s : State} (h : s.Inv) (hp : s.PH = .load ∨ s.PH = .round ∨ s.PH = .feed)
    (ho : s.ps = .open) : low6 s.CNT = 0#6 ∧ 64 ≤ s.CNT.toNat := by
  obtain ⟨-, -, -, hblock⟩ := h
  exact hblock ((messageBlockBusy_iff s).2 ⟨hp, ho⟩)

/-- In a state that meets the invariant every ready phase but FAULT takes commands. -/
theorem State.Inv.ready {s : State} (h : s.Inv) (hb : s.PH.ready = true) (hf : s.PH ≠ .fault) : s.Ready :=
  s.ready_of_tests h.recv_open hb hf

/-! ## Establishing it -/

/-- The invariant outside IDLE and FAULT, from the phase and the stage. -/
theorem State.Inv.of_running {s : State} {p : Phase} {q : Stage} (hp : s.PH = p) (hq : s.ps = q) (hcode : s.FC = .clear)
    (hrun : p ≠ .idle ∧ p ≠ .fault) (hstage : stageFits p q = true)
    (hblock : p = .load ∨ p = .round ∨ p = .feed → q = .open → low6 s.CNT = 0#6 ∧ 64 ≤ s.CNT.toNat) : s.Inv := by
  subst hp hq
  exact ⟨iff_of_true hcode hrun.2, hstage, fun hi => absurd hi hrun.1, fun hb =>
    have ⟨hp, ho⟩ := (messageBlockBusy_iff s).1 hb
    hblock hp ho⟩

/-- A hardware fault meets it, whatever the state was. -/
theorem raise_inv {code : FaultCode} (hc : code ≠ .clear) (s : State) : (raise code s).Inv :=
  ⟨iff_of_false hc fun h => h rfl, rfl, nofun, nofun⟩

/-- So does the state after a reset edge (R37). -/
theorem resetEdge_inv (s : State) : (resetEdge s).Inv :=
  ⟨iff_of_true rfl nofun, rfl, fun _ => ⟨rfl, rfl⟩, nofun⟩

/-- The byte that fills the block brings the count to a multiple of 64. -/
theorem low6_succ_of_last {c : BitVec 61} (hc : c ≠ maxCount) (h : c.toNat % 64 = 63) :
    low6 (c + 1#61) = 0#6 ∧ 64 ≤ (c + 1#61).toNat := by
  have hsucc := cnt_succ_toNat c hc
  refine ⟨BitVec.eq_of_toNat_eq ?_, by omega⟩
  rw [low6_toNat, hsucc]
  change _ = 0
  omega

/-- DATA keeps the invariant: LOAD follows only where the block is full. -/
theorem appendByte_inv {s : State} (b : Byte) (hp : s.PH = .recv) (ho : s.ps = .open) (hcode : s.FC = .clear)
    (hc : s.CNT ≠ maxCount) : (appendByte b s).Inv := by
  have hphase := appendByte_PH_of_recv b hp
  have hstage : (appendByte b s).ps = .open := (appendByte_ps b s).trans ho
  have hclear : (appendByte b s).FC = .clear := (appendByte_FC b s).trans hcode
  by_cases hfull : s.CNT.toNat % 64 = 63
  · rw [if_pos hfull] at hphase
    refine .of_running hphase hstage hclear (by decide) rfl fun _ _ => ?_
    rw [appendByte_CNT]
    exact low6_succ_of_last hc hfull
  · rw [if_neg hfull] at hphase
    exact .of_running hphase hstage hclear (by decide) rfl nofun

/-- Every effect of a command keeps the invariant. -/
theorem CommandEffect.keeps_inv {s t : State} {i : Instr} (e : CommandEffect s i t) (h : s.Inv) : t.Inv := by
  have hcode : s.FC = .clear := h.FC_eq e.PH_ne_fault
  cases e with
  | init => exact .of_running (openMessage_PH s) (openMessage_ps s) hcode (by decide) rfl nofun
  | data b hp ho hc => exact appendByte_inv b hp ho hcode hc
  | final => exact .of_running (closeMessage_PH s) (closeMessage_ps s) hcode (by decide) rfl nofun
  | overflow | noMessageData | noMessageFinal | rsv => exact raise_inv (by decide) s

/-- Micro-operations have their effects in busy phases. -/
theorem MicroEffect.busy {s t : State} (e : MicroEffect s t) : s.PH.ready = false := by
  cases e with
  | padMarker hp | padTrailer hp | load hp | round hp | feed _ hp => rw [hp]; rfl

/-- Every effect of a micro-operation keeps the invariant: PAD ends with `ps` 2 or 3, the block in progress stays what it is, and
FEED leads to the phase that fits the stage. -/
theorem MicroEffect.keeps_inv {s t : State} (e : MicroEffect s t) (h : s.Inv) : t.Inv := by
  have hcode : s.FC = .clear := h.FC_eq fun hf => by have hb := e.busy; rw [hf] at hb; cases hb
  cases e with
  | padMarker hp hs =>
    have hclear := (padMarker_FC s).trans hcode
    have hstage := padMarker_ps s
    split_ifs at hstage
    · exact .of_running (padMarker_PH s) hstage hclear (by decide) rfl nofun
    · exact .of_running (padMarker_PH s) hstage hclear (by decide) rfl nofun
  | padTrailer hp hs =>
    exact .of_running (padTrailer_PH s) (padTrailer_ps s) ((padTrailer_FC s).trans hcode) (by decide) rfl nofun
  | load hp =>
    have hstage := bne_iff_ne.2 (h.block_stage (.inl hp))
    exact .of_running (loadBlock_PH s) (loadBlock_ps s) hcode (by decide) hstage fun _ => h.messageBlock (.inl hp)
  | round hp =>
    have hstage := bne_iff_ne.2 (h.block_stage (.inr (.inl hp)))
    obtain hnext | hnext := roundStep_PH_cases s
    · exact .of_running hnext (roundStep_ps s) hcode (by decide) hstage fun _ => h.messageBlock (.inr (.inl hp))
    · exact .of_running hnext (roundStep_ps s) hcode (by decide) hstage fun _ => h.messageBlock (.inr (.inl hp))
  | feed p hp hs =>
    obtain ⟨ho, rfl⟩ | ⟨ho, rfl⟩ | ⟨ho, rfl⟩ := phaseAfterFeed_cases hs
    all_goals exact .of_running (feedForward_PH _ s) ((feedForward_ps _ s).trans ho) hcode (by decide) rfl nofun

/-- The invariant does not speak of the inputs. -/
theorem State.Inv.nextEdge {s : State} (h : s.Inv) : s.nextEdge.Inv :=
  h

/-- Every step keeps the invariant. -/
theorem step_keeps_inv {s t : State} (h : s.Inv) (hs : step s = .next t) : t.Inv := by
  cases step_cases hs with
  | reset => exact resetEdge_inv _
  | micro _ _ e => exact e.keeps_inv h.nextEdge
  | quiet | discarded => exact h.nextEdge
  | command _ _ _ e => exact e.keeps_inv h.nextEdge

/-! ## No step stops (46_host_commands.md R216) -/

/-- A command in a state that takes commands answers a next state. -/
theorem State.Ready.exec_total {s : State} (h : s.Ready) (w : CmdWord) : ∃ t : State, exec (decodeCommand w) s = .next t := by
  rw [exec_command_ready h w]
  split_ifs <;> exact ⟨_, rfl⟩

/-- In a state that meets the invariant the micro-operation of a busy phase is none of the unreachable combinations. -/
theorem State.Inv.busy_step_total {s : State} (h : s.Inv) (hr : s.pins.rst = false) (hb : s.PH.ready = false) :
    ∃ t : State, step s = .next t := by
  cases hp : s.PH with
  | pad =>
    obtain hs | hs := h.pad_due hp
    · exact ⟨_, step_pad_marker hr hp hs⟩
    · exact ⟨_, step_pad_trailer hr hp hs⟩
  | load => exact ⟨_, step_load hr hp⟩
  | round => exact ⟨_, step_round hr hp⟩
  | feed =>
    obtain ⟨p, hnext, -⟩ := phaseAfterFeed_of_ne (h.block_stage (.inr (.inr hp)))
    exact ⟨_, step_feed hr hp hnext⟩
  | idle | recv | done | fault => rw [hp] at hb; cases hb

/-- From a state that meets the invariant every step answers a next state. -/
theorem State.Inv.step_total {s : State} (h : s.Inv) : ∃ t : State, step s = .next t := by
  cases hr : s.pins.rst with
  | true => exact ⟨_, step_reset hr⟩
  | false =>
    cases hb : s.PH.ready with
    | false => exact h.busy_step_total hr hb
    | true =>
      by_cases hf : s.PH = .fault
      · exact ⟨_, step_in_fault hf hr⟩
      have hready := h.ready hb hf
      cases hv : s.pins.inValid with
      | false => exact ⟨_, step_quiet hb h.recv_open hr hv⟩
      | true =>
        rw [hready.step_offered hr hv]
        exact State.Ready.exec_total (s := s.nextEdge) hready _

/-- So does a run of any length. -/
theorem State.Inv.run_total {s : State} (h : s.Inv) (k : Nat) : ∃ t : State, run k s = .next t := by
  induction k generalizing s with
  | zero => exact ⟨s, rfl⟩
  | succ k ih =>
    obtain ⟨u, hstep⟩ := h.step_total
    obtain ⟨t, hrun⟩ := ih (step_keeps_inv h hstep)
    exact ⟨t, (run_succ k hstep).trans hrun⟩

/-! ## A busy unit is ready again (46_host_commands.md R212, R219; log entry 11) -/

theorem Stage.stepsAfterFeed_le (ps : Stage) : ps.stepsAfterFeed ≤ 67 := by
  cases ps <;> decide

/-- The longest way through the busy phases is that of a tail of two blocks. -/
theorem State.busyLeft_le (s : State) : s.busyLeft ≤ 134 := by
  have hfeed := s.ps.stepsAfterFeed_le
  unfold State.busyLeft tailSteps
  split
  · split_ifs <;> omega
  all_goals omega

/-- A busy state has a busy step before it. -/
theorem State.busyLeft_pos {s : State} (h : s.PH.ready = false) : 0 < s.busyLeft := by
  have hindex := s.t.isLt
  cases hp : s.PH with
  | pad =>
    simp only [State.busyLeft, hp, tailSteps]
    split_ifs <;> decide
  | load => rw [State.busyLeft_load hp]; omega
  | round => rw [State.busyLeft_round hp]; omega
  | feed => rw [State.busyLeft_feed hp]; omega
  | idle | recv | done | fault => rw [hp] at h; cases h

/-- Before the last of the busy steps that it has left, a state is busy. -/
theorem run_lt_busyLeft {j : Nat} {s t : State} (hj : j < s.busyLeft) (hr : NoReset j s) (h : run j s = .next t) :
    t.inReady = false := by
  obtain ⟨hleft, -⟩ := run_busy hj.le hr h
  exact t.busy_of_busyLeft (by omega)

/-- After it the state is ready. -/
theorem run_busyLeft {s t : State} (hr : NoReset s.busyLeft s) (h : run s.busyLeft s = .next t) : t.inReady = true := by
  obtain ⟨hleft, -⟩ := run_busy (Nat.le_refl _) hr h
  by_contra hb
  have hpos := t.busyLeft_pos (eq_false_of_ne_true hb)
  omega

end Sys2Proof.Machine

namespace Sys2Proof

open Sys2Proof.Machine

/-- Settles O33: the reset edge, every effect of a command and of a micro-operation, and an edge without one keep it. -/
theorem everyStepKeepsInvariant : Obligations.EveryStepKeepsInvariant :=
  fun _ _ => step_keeps_inv

/-- Settles O34: the stages that the invariant allows leave no unreachable combination. -/
theorem stepIsTotalUnderInvariant : Obligations.StepIsTotalUnderInvariant :=
  fun _ h => h.step_total

/-- Settles O39: the number of busy steps left is at most 134, and the run of that length ends in a ready phase. -/
theorem busyEndsWithin134Steps : Obligations.BusyEndsWithin134Steps := by
  intro s h _ hr
  obtain ⟨u, hrun⟩ := h.run_total s.busyLeft
  exact ⟨s.busyLeft, u, s.busyLeft_le, hrun, run_busyLeft (hr.mono s.busyLeft_le) hrun⟩

/-- Settles O40: 66 busy steps are left of a block with `ps = 0`, and FEED leads to RECV. -/
theorem fullBlockReturnsToRecv : Obligations.FullBlockReturnsToRecv := by
  intro s hp ho hr
  obtain ⟨u, hfeeds, hnext, hkeep⟩ := feeds_block hp (by rw [ho]; rfl) hr
  have hleft : s.busyLeft = 66 := by rw [State.busyLeft_load hp, ho]; rfl
  refine ⟨fun j hj => ?_, u, hfeeds.run, hnext, hkeep.stage.trans ho, hkeep.count, hkeep.block⟩
  obtain ⟨v, hrun, -⟩ := run_split (Nat.add_sub_of_le hj.le ▸ hfeeds.run)
  exact ⟨v, hrun, run_lt_busyLeft (hleft ▸ hj) (hr.mono hj.le) hrun⟩

/-- Settles O32: the reset values of 10_state.md R37. -/
theorem resetMeetsInvariant : Obligations.ResetMeetsInvariant :=
  ⟨iff_of_true rfl nofun, rfl, fun _ => ⟨rfl, rfl⟩, nofun⟩

end Sys2Proof
end

section
/-! PROOFS of the two isolation claims (10_state.md R36, R39): two states that are alike in one of the ways of Safety.lean take alike
steps. What a step decides by is common to both claims and is treated once. -/

namespace Sys2Proof.Machine

/-! ## Alike outcomes -/

/-- Two outcomes are alike: both are next states, related by `R`, or both are the same stop. -/
def Alike (R : State → State → Prop) (x y : Result) : Prop :=
  (∃ t v : State, x = .next t ∧ y = .next v ∧ R t v) ∨ (∃ f : Fault, x = .fault f ∧ y = .fault f)

theorem Alike.next {R : State → State → Prop} {t v : State} (h : R t v) : Alike R (.next t) (.next v) :=
  .inl ⟨t, v, rfl, rfl, h⟩

theorem Alike.fault {R : State → State → Prop} (f : Fault) : Alike R (.fault f) (.fault f) :=
  .inr ⟨f, rfl, rfl⟩

/-- What `R` has to give for the two states `s` and `u` at an edge, where `b` and `c` are the bytes offered: the registers that the
sequencer decides by are the same, and each write of a step leads to related states. -/
structure StepsAlike (R : State → State → Prop) (b c : Byte) (s u : State) : Prop where
  PH : s.PH = u.PH
  ps : s.ps = u.ps
  CNT : s.CNT = u.CNT
  stay : R s u
  reset : R (resetEdge s) (resetEdge u)
  raise (code : FaultCode) : R (raise code s) (raise code u)
  init : R (openMessage s) (openMessage u)
  data : s.PH = .recv → s.CNT ≠ maxCount → R (appendByte b s) (appendByte c u)
  final : s.PH = .recv → R (closeMessage s) (closeMessage u)
  padMarker : s.PH = .pad → R (padMarker s) (padMarker u)
  padTrailer : s.PH = .pad → R (padTrailer s) (padTrailer u)
  load : s.PH = .load → R (loadBlock s) (loadBlock u)
  round : s.PH = .round → R (roundStep s) (roundStep u)
  feed (p : Phase) : s.PH = .feed → phaseAfterFeed s.ps = some p → R (feedForward p s) (feedForward p u)

section
variable {R : State → State → Prop} {b c : Byte} {s u : State} (h : StepsAlike R b c s u)
include h

/-- RECV with another stage than 0 is met in both states or in neither. -/
theorem StepsAlike.recvBroken : recvBroken s = recvBroken u := by
  rw [Machine.recvBroken, Machine.recvBroken, h.PH, h.ps]

theorem StepsAlike.idleEdge : Alike R (idleEdge s) (idleEdge u) := by
  rw [Machine.idleEdge, Machine.idleEdge, ← h.recvBroken]
  split_ifs
  · exact .fault _
  · exact .next h.stay

/-- A command's guard keeps outcomes alike. -/
theorem StepsAlike.onTransfer {x y : Result} (he : Alike R x y) : Alike R (onTransfer s x) (onTransfer u y) := by
  rw [Machine.onTransfer, Machine.onTransfer, ← h.PH, ← h.recvBroken]
  cases s.PH with
  | pad | load | round | feed | fault => exact .next h.stay
  | idle | done => exact he
  | recv =>
    dsimp only
    split_ifs
    · exact .fault _
    · exact he

/-- So does the guard of a command that needs a message. -/
theorem StepsAlike.needsMessage {x y : Result} (he : s.PH = .recv → Alike R x y) :
    Alike R (needsMessage s x) (needsMessage u y) := by
  rw [Machine.needsMessage, Machine.needsMessage, ← h.PH]
  refine h.onTransfer ?_
  split_ifs with hp
  · exact he hp
  · exact .next (h.raise _)

/-- So does the guard of a micro-operation. -/
theorem StepsAlike.inPhase {p : Phase} {x y : Result} (he : s.PH = p → Alike R x y) :
    Alike R (inPhase p s x) (inPhase p u y) := by
  rw [Machine.inPhase, Machine.inPhase, ← h.PH]
  split_ifs with hp
  · exact he hp
  · exact .fault _

theorem StepsAlike.execData : Alike R (execData b s) (execData c u) := by
  refine h.needsMessage fun hp => .next ?_
  rw [← h.CNT]
  split_ifs with hc
  · exact h.raise _
  · exact h.data hp hc

/-- The commands with the same opcode. -/
theorem StepsAlike.command {w w' : CmdWord} (hop : opField w = opField w') (hb : dataField w = b) (hc : dataField w' = c) :
    Alike R (exec (decodeCommand w) s) (exec (decodeCommand w') u) := by
  obtain hw | hw | hw | hw := op_cases (opField w)
  · rw [decodeCommand_of_op_init hw, decodeCommand_of_op_init (hop ▸ hw)]
    exact h.onTransfer (.next h.init)
  · rw [decodeCommand_of_op_data hw, decodeCommand_of_op_data (hop ▸ hw), hb, hc]
    exact h.execData
  · rw [decodeCommand_of_op_final hw, decodeCommand_of_op_final (hop ▸ hw)]
    exact h.needsMessage fun hp => .next (h.final hp)
  · rw [decodeCommand_of_op_rsv hw, decodeCommand_of_op_rsv (hop ▸ hw)]
    exact h.onTransfer (.next (h.raise _))

theorem StepsAlike.execPad : Alike R (execPad s) (execPad u) := by
  refine h.inPhase fun hp => ?_
  rw [← h.ps]
  match s.ps with
  | .markerDue => exact .next (h.padMarker hp)
  | .trailerDue => exact .next (h.padTrailer hp)
  | .open | .last => exact .fault _

theorem StepsAlike.execFeed : Alike R (execFeed s) (execFeed u) := by
  refine h.inPhase fun hp => ?_
  rw [← h.ps]
  cases hs : phaseAfterFeed s.ps with
  | none => exact .fault _
  | some p => exact .next (h.feed p hp hs)

/-- The micro-operation of a phase. -/
theorem StepsAlike.micro {i : Instr} (hi : decodePhase s.PH.code = some i) : Alike R (exec i s) (exec i u) := by
  rw [decodePhase_code] at hi
  split at hi <;> cases hi
  · exact h.execPad
  · exact h.inPhase fun hp => .next (h.load hp)
  · exact h.inPhase fun hp => .next (h.round hp)
  · exact h.execFeed

end

/-- If the ports differ at most in the data bits, the steps are alike. -/
theorem step_alike {R : State → State → Prop} {s u : State} (hpins : sameButData s.pins u.pins)
    (h : StepsAlike R (dataField s.pins.inCmd) (dataField u.pins.inCmd) s.nextEdge u.nextEdge) :
    Alike R (step s) (step u) := by
  obtain ⟨hrst, hvalid, hop⟩ := hpins
  have hphase : s.PH = u.PH := h.PH
  cases hr : s.pins.rst with
  | true =>
    rw [step_reset hr, step_reset (hrst ▸ hr)]
    exact .next h.reset
  | false =>
    cases hb : s.PH.ready with
    | false =>
      obtain ⟨i, hi⟩ := Phase.busy_decodes hb
      rw [step_micro hr hi, step_micro (hrst ▸ hr) (hphase ▸ hi)]
      exact h.micro hi
    | true =>
      cases hv : s.pins.inValid with
      | false =>
        rw [step_no_command hr hb hv, step_no_command (hrst ▸ hr) (hphase ▸ hb) (hvalid ▸ hv)]
        exact h.idleEdge
      | true =>
        rw [step_command hr hb hv, step_command (hrst ▸ hr) (hphase ▸ hb) (hvalid ▸ hv)]
        exact h.command hop rfl rfl

/-! ## The sequencer's registers (10_state.md R36) -/

theorem sameButData_refl (p : Pins) : sameButData p p :=
  ⟨rfl, rfl, rfl⟩

/-- The first elements of two related lists are related. -/
theorem headD_of_forall₂ {α : Type} {R : α → α → Prop} {l m : List α} {d : α} (h : List.Forall₂ R l m) (hd : R d d) :
    R (l.headD d) (m.headD d) := by
  cases h with
  | nil => exact hd
  | cons hhead _ => exact hhead

/-- Inputs that are the same but for data bits are so at the coming edge. -/
theorem SameControl.pins {s u : State} (h : SameControl s u) : sameButData s.pins u.pins :=
  headD_of_forall₂ h.inputs (sameButData_refl quietPins)

/-- And at those after it. -/
theorem SameControl.nextEdge {s u : State} (h : SameControl s u) : SameControl s.nextEdge u.nextEdge :=
  ⟨by simpa using List.forall₂_drop 1 h.inputs, h.PH, h.ps, h.CNT, h.FC, h.t⟩

/-- No write of the sequencer's registers reads a message byte, a word of `H`, `V` or `WIN`, or the byte offered. -/
theorem SameControl.stepsAlike {s u : State} (h : SameControl s u) (b c : Byte) : StepsAlike SameControl b c s u where
  PH := h.PH
  ps := h.ps
  CNT := h.CNT
  stay := h
  reset := ⟨h.inputs, rfl, rfl, rfl, rfl, rfl⟩
  raise _ := ⟨h.inputs, rfl, h.ps, h.CNT, rfl, h.t⟩
  init := ⟨h.inputs, rfl, rfl, rfl, h.FC, h.t⟩
  data _ _ := ⟨by simpa using h.inputs, by simp [h.CNT, h.PH], by simp [h.ps], by simp [h.CNT], by simp [h.FC], by simp [h.t]⟩
  final _ := ⟨h.inputs, rfl, rfl, h.CNT, h.FC, h.t⟩
  padMarker _ := ⟨by simpa using h.inputs, by simp, by simp [h.CNT], by simp [h.CNT], by simp [h.FC], by simp [h.t]⟩
  padTrailer _ := ⟨by simpa using h.inputs, by simp, by simp, by simp [h.CNT], by simp [h.FC], by simp [h.t]⟩
  load _ := ⟨h.inputs, rfl, h.ps, h.CNT, h.FC, rfl⟩
  round _ := ⟨h.inputs, by simp [h.t], h.ps, h.CNT, h.FC, by simp [h.t]⟩
  feed _ _ _ := ⟨h.inputs, rfl, h.ps, h.CNT, h.FC, h.t⟩

/-! ## The specified contents (10_state.md R39) -/

/-- Two states that agree in what is specified have the same ports at the coming edge. -/
theorem SameSpecified.pins {s u : State} (h : SameSpecified s u) : s.pins = u.pins := by
  rw [State.pins, State.pins, h.inputs]

theorem SameSpecified.nextEdge {s u : State} (h : SameSpecified s u) : SameSpecified s.nextEdge u.nextEdge :=
  { h with inputs := congrArg List.tail h.inputs }

/-- They show the same digest: only DONE shows `H`, and there it is specified. -/
theorem SameSpecified.digest {s u : State} (h : SameSpecified s u) : s.digest = u.digest := by
  by_cases hp : s.PH = .done
  · have hH : s.H = u.H := h.H (by rw [hp]; nofun) (by rw [hp]; nofun)
    rw [State.digest_of_done hp, State.digest_of_done (h.PH ▸ hp), hH]
  · rw [State.digest_of_ne hp, State.digest_of_ne (h.PH ▸ hp)]

/-- They are observed alike. -/
theorem SameSpecified.observe {s u : State} (h : SameSpecified s u) : s.observe = u.observe := by
  simp only [State.observe, State.inReady, State.digestValid, State.faultFlag, State.faultCode, h.digest, h.pins, h.PH, h.FC]

/-- The bytes of the message in the block are the same after DATA. -/
theorem SameSpecified.putByte_getElem {s u : State} (h : SameSpecified s u) (hp : s.PH = .recv) (b : Byte) {i : Nat}
    (hi : i < 64) (hle : i ≤ (low6 s.CNT).toNat) : (putByte b s.CNT s.BUF)[i] = (putByte b u.CNT u.BUF)[i] := by
  rw [Machine.putByte_getElem, Machine.putByte_getElem, ← h.CNT]
  split_ifs with hlast
  · rfl
  · exact h.message (.inl hp) ⟨i, hi⟩ (by dsimp only; omega)

/-- After a reset edge nothing of `H`, `V`, `WIN` and `BUF` is specified (R37). -/
theorem SameSpecified.after_reset {s u : State} (h : SameSpecified s u) : SameSpecified (resetEdge s) (resetEdge u) where
  inputs := h.inputs
  PH := rfl
  ps := rfl
  CNT := rfl
  FC := rfl
  H hp := absurd rfl hp
  V := nofun
  WIN := nofun
  t := nofun
  message := nofun
  block := nofun

/-- Nor is it in FAULT. -/
theorem SameSpecified.after_raise {s u : State} (h : SameSpecified s u) (code : FaultCode) :
    SameSpecified (raise code s) (raise code u) where
  inputs := h.inputs
  PH := rfl
  ps := h.ps
  CNT := h.CNT
  FC := rfl
  H _ hp := absurd rfl hp
  V := nofun
  WIN := nofun
  t := nofun
  message := nofun
  block := nofun

/-- INIT specifies `H` and starts a block without bytes. -/
theorem SameSpecified.after_init {s u : State} (h : SameSpecified s u) : SameSpecified (openMessage s) (openMessage u) where
  inputs := h.inputs
  PH := rfl
  ps := rfl
  CNT := rfl
  FC := h.FC
  H _ _ := rfl
  V := nofun
  WIN := nofun
  t := nofun
  message _ _ hi := absurd hi (Nat.not_lt_zero _)
  block := nofun

/-- FINAL leaves the bytes of the message in the block. -/
theorem SameSpecified.after_final {s u : State} (h : SameSpecified s u) (hp : s.PH = .recv) :
    SameSpecified (closeMessage s) (closeMessage u) where
  inputs := h.inputs
  PH := rfl
  ps := rfl
  CNT := h.CNT
  FC := h.FC
  H _ _ := h.H (by rw [hp]; nofun) (by rw [hp]; nofun)
  V := nofun
  WIN := nofun
  t := nofun
  message _ := h.message (.inl hp)
  block := nofun

/-- What leads to LOAD has specified the whole block; it leaves `H` as it was. -/
theorem SameSpecified.of_load {s u : State} (hi : s.inputs = u.inputs) (hs : s.PH = .load) (hu : u.PH = .load)
    (hps : s.ps = u.ps) (hCNT : s.CNT = u.CNT) (hFC : s.FC = u.FC) (hH : s.H = u.H) (hBUF : s.BUF = u.BUF) :
    SameSpecified s u where
  inputs := hi
  PH := hs.trans hu.symm
  ps := hps
  CNT := hCNT
  FC := hFC
  H _ _ := hH
  V := by rw [hs]; nofun
  WIN := by rw [hs]; nofun
  t := by rw [hs]; nofun
  message := by rw [hs]; nofun
  block _ := hBUF

/-- DATA specifies the byte at `CNT mod 64`; with the 64th byte the block is specified whole. -/
theorem SameSpecified.after_data {s u : State} (h : SameSpecified s u) (hp : s.PH = .recv) (hc : s.CNT ≠ maxCount) (b : Byte) :
    SameSpecified (appendByte b s) (appendByte b u) := by
  have hu : u.PH = .recv := h.PH ▸ hp
  have hH : s.H = u.H := h.H (by rw [hp]; nofun) (by rw [hp]; nofun)
  have hsPH := appendByte_PH_of_recv b hp
  have huPH := appendByte_PH_of_recv b hu
  rw [← h.CNT] at huPH
  by_cases hfull : s.CNT.toNat % 64 = 63
  · rw [if_pos hfull] at hsPH huPH
    refine .of_load (by simpa using h.inputs) hsPH huPH (by simp [h.ps]) (by simp [h.CNT]) (by simp [h.FC]) (by simp [hH]) ?_
    rw [appendByte_BUF, appendByte_BUF]
    exact Vector.ext fun i hi => h.putByte_getElem hp b hi (by rw [low6_toNat]; omega)
  · rw [if_neg hfull] at hsPH huPH
    exact {
      inputs := by simpa using h.inputs
      PH := hsPH.trans huPH.symm
      ps := by simp [h.ps]
      CNT := by simp [h.CNT]
      FC := by simp [h.FC]
      H := fun _ _ => by simp [hH]
      V := by rw [hsPH]; nofun
      WIN := by rw [hsPH]; nofun
      t := by rw [hsPH]; nofun
      message := fun _ i hi => by
        rw [appendByte_CNT, low6_toNat, cnt_succ_toNat _ hc] at hi
        rw [appendByte_BUF, appendByte_BUF]
        exact h.putByte_getElem hp b i.isLt (by rw [low6_toNat]; omega)
      block := by rw [hsPH]; nofun }

/-- PAD with the marker due keeps the message bytes of the block and writes all others. -/
theorem SameSpecified.after_padMarker {s u : State} (h : SameSpecified s u) (hp : s.PH = .pad) :
    SameSpecified (padMarker s) (padMarker u) := by
  have hH : s.H = u.H := h.H (by rw [hp]; nofun) (by rw [hp]; nofun)
  have hBUF : (padMarker s).BUF = (padMarker u).BUF := by
    apply Vector.ext
    intro i hi
    rw [padMarker_BUF_getElem _ hi, padMarker_BUF_getElem _ hi, ← h.CNT]
    split_ifs with hmsg
    · exact h.message (.inr hp) ⟨i, hi⟩ (by rwa [low6_toNat])
    all_goals rfl
  exact .of_load (by simpa using h.inputs) (padMarker_PH s) (padMarker_PH u) (by simp [h.CNT]) (by simp [h.CNT])
    (by simp [h.FC]) (by simp [hH]) hBUF

/-- PAD with the trailer due writes every byte of the block. -/
theorem SameSpecified.after_padTrailer {s u : State} (h : SameSpecified s u) (hp : s.PH = .pad) :
    SameSpecified (padTrailer s) (padTrailer u) := by
  have hH : s.H = u.H := h.H (by rw [hp]; nofun) (by rw [hp]; nofun)
  have hBUF : (padTrailer s).BUF = (padTrailer u).BUF :=
    Vector.ext fun i hi => by rw [padTrailer_BUF_getElem _ hi, padTrailer_BUF_getElem _ hi, h.CNT]
  exact .of_load (by simpa using h.inputs) (padTrailer_PH s) (padTrailer_PH u) (by simp) (by simp [h.CNT])
    (by simp [h.FC]) (by simp [hH]) hBUF

/-- LOAD specifies `V`, `WIN` and `t` from `H` and the block. -/
theorem SameSpecified.after_load {s u : State} (h : SameSpecified s u) (hp : s.PH = .load) :
    SameSpecified (loadBlock s) (loadBlock u) := by
  have hH : s.H = u.H := h.H (by rw [hp]; nofun) (by rw [hp]; nofun)
  have hBUF : s.BUF = u.BUF := h.block (.inl hp)
  exact {
    inputs := h.inputs
    PH := rfl
    ps := h.ps
    CNT := h.CNT
    FC := h.FC
    H := fun _ _ => hH
    V := fun _ => hH
    WIN := fun _ => congrArg loadWindow hBUF
    t := fun _ => rfl
    message := nofun
    block := fun _ => hBUF }

/-- ROUND computes `V`, `WIN` and `t` from themselves. -/
theorem SameSpecified.after_round {s u : State} (h : SameSpecified s u) (hp : s.PH = .round) :
    SameSpecified (roundStep s) (roundStep u) := by
  have hH : s.H = u.H := h.H (by rw [hp]; nofun) (by rw [hp]; nofun)
  have hV : s.V = u.V := h.V (.inl hp)
  have hWIN : s.WIN = u.WIN := h.WIN hp
  have ht : s.t = u.t := h.t hp
  exact {
    inputs := h.inputs
    PH := by simp [ht]
    ps := h.ps
    CNT := h.CNT
    FC := h.FC
    H := fun _ _ => hH
    V := fun _ => by simp [hV, hWIN, ht]
    WIN := fun _ => by simp [hWIN]
    t := fun _ => by simp [ht]
    message := by obtain hnext | hnext := roundStep_PH_cases s <;> rw [hnext] <;> nofun
    block := fun _ => h.block (.inr (.inl hp)) }

/-- FEED adds `V` to `H`; the block stays, as far as it is still read. -/
theorem SameSpecified.after_feed {s u : State} (h : SameSpecified s u) {p : Phase} (hp : s.PH = .feed)
    (hs : phaseAfterFeed s.ps = some p) : SameSpecified (feedForward p s) (feedForward p u) := by
  have hH : s.H = u.H := h.H (by rw [hp]; nofun) (by rw [hp]; nofun)
  have hV : s.V = u.V := h.V (.inr hp)
  have hBUF : s.BUF = u.BUF := h.block (.inr (.inr hp))
  have hnext : p ≠ .round ∧ p ≠ .feed := by
    obtain ⟨-, rfl⟩ | ⟨-, rfl⟩ | ⟨-, rfl⟩ := phaseAfterFeed_cases hs <;> decide
  obtain ⟨hround, hfeed⟩ := hnext
  exact {
    inputs := h.inputs
    PH := rfl
    ps := h.ps
    CNT := h.CNT
    FC := h.FC
    H := fun _ _ => by simp [hH, hV]
    V := fun hr => (hr.elim hround hfeed).elim
    WIN := fun hr => absurd hr hround
    t := fun hr => absurd hr hround
    message := fun _ i _ => congrArg (·[i]) hBUF
    block := fun _ => hBUF }

/-- No write reads contents that are not specified. -/
theorem SameSpecified.stepsAlike {s u : State} (h : SameSpecified s u) (b : Byte) :
    StepsAlike SameSpecified b b s u where
  PH := h.PH
  ps := h.ps
  CNT := h.CNT
  stay := h
  reset := h.after_reset
  raise := h.after_raise
  init := h.after_init
  data hp hc := h.after_data hp hc b
  final := h.after_final
  padMarker := h.after_padMarker
  padTrailer := h.after_padTrailer
  load := h.after_load
  round := h.after_round
  feed _ := h.after_feed

end Sys2Proof.Machine

namespace Sys2Proof

open Sys2Proof.Machine

/-- Settles O37: what a step reads of `H`, `V`, `WIN` and `BUF`, and what DONE shows, is specified. -/
theorem unspecifiedContentsAreNeverObserved : Obligations.UnspecifiedContentsAreNeverObserved := by
  intro s u h
  refine ⟨h.observe, step_alike (h.pins ▸ sameButData_refl _) ?_⟩
  rw [← h.pins]
  exact h.nextEdge.stepsAlike _

/-- Settles O38: the sequencer's writes read its own registers only. -/
theorem sequencerIgnoresMessageContents : Obligations.SequencerIgnoresMessageContents :=
  fun _ _ h => ⟨congrArg Phase.ready h.PH, step_alike h.pins (h.nextEdge.stepsAlike _ _)⟩

end Sys2Proof
end

section
/-! PROOFS of 10_state.md R38 h, R26 and R21: what the unit holds of a message that is still open. -/

namespace Sys2Proof.Machine

/-- A run that transfers bytes of the message, whatever idle and busy steps lie between them, keeps the message open; `c` of its
bytes came before the run, and LOAD sees the whole blocks that it has not seen yet. -/
theorem OpenMessage.run {m : List Byte} {c k : Nat} {s t : State} (h : OpenMessage m c s) (hm : m.length < 2 ^ 61)
    (hr : NoReset k s) (ht : transfers k s = (m.drop c).map .data) (hrun : run k s = .next t) :
    OpenMessage m m.length t ∧
      (List.range s.blocksSeen).map (blockOf m) ++ loadedBlocks k s = (List.range t.blocksSeen).map (blockOf m) := by
  induction k generalizing c s with
  | zero =>
    cases hrun
    have hall : m.length ≤ c := List.drop_eq_nil_iff.1 (List.map_eq_nil_iff.1 ht.symm)
    obtain rfl : c = m.length := le_antisymm h.count_le hall
    exact ⟨h, List.append_nil _⟩
  | succ k ih =>
    obtain ⟨u, hstep, hrest⟩ := run_succ_split hrun
    have hr' := hr.tail (step_inputs hstep)
    rw [transfers_succ k hstep] at ht
    cases hs : s.transferred with
    | none =>
      rw [hs] at ht
      obtain ⟨v, hv, hopen, hseen⟩ := h.step_unattended hr.head hs
      obtain rfl := Host.Outcome.next.inj (hstep.symm.trans hv)
      obtain ⟨hend, hblocks⟩ := ih hopen hr' ht hrest
      refine ⟨hend, ?_⟩
      rw [loadedBlocks_succ k hr.head hstep, ← List.append_assoc, ← hseen, hblocks]
    | some i =>
      rw [hs] at ht
      have hp := h.recv_of_transferred hs
      have hc : c < m.length := by
        by_contra hall
        rw [List.drop_of_length_le (Nat.le_of_not_lt hall)] at ht
        cases ht
      rw [List.drop_eq_getElem_cons hc, ← List.getD_eq_getElem m 0#8 hc] at ht
      obtain ⟨rfl, hdue⟩ := List.cons.inj ht
      have hlim := h.cnt_ne_max hm hc
      obtain rfl := Host.Outcome.next.inj (hstep.symm.trans (h.step_data hs hlim))
      obtain ⟨hopen, hseen⟩ := h.nextEdge.after_data hp hc hlim
      obtain ⟨hend, hblocks⟩ := ih hopen hr' hdue hrest
      refine ⟨hend, ?_⟩
      rw [loadedBlocks_succ k hr.head hstep, State.loadNow_of_ne (by rw [hp]; nofun), List.nil_append, ← hblocks, hseen]
      rfl

/-- From any ready state, INIT opens the message: LOAD sees nothing before it. -/
theorem State.Ready.run_open {m : List Byte} {k : Nat} {s t : State} (h : s.Ready) (hm : m.length < 2 ^ 61)
    (hr : NoReset k s) (ht : transfers k s = .init :: m.map .data) (hrun : run k s = .next t) :
    OpenMessage m m.length t ∧ loadedBlocks k s = (List.range t.blocksSeen).map (blockOf m) := by
  induction k generalizing s with
  | zero => cases ht
  | succ k ih =>
    obtain ⟨u, hstep, hrest⟩ := run_succ_split hrun
    have hr' := hr.tail (step_inputs hstep)
    rw [loadedBlocks_succ k hr.head hstep, State.loadNow_of_ne h.PH_ne_load, List.nil_append]
    rw [transfers_succ k hstep] at ht
    cases hs : s.transferred with
    | none =>
      rw [hs] at ht
      obtain rfl := Host.Outcome.next.inj (hstep.symm.trans (h.step_waiting hr.head hs))
      exact ih (s := s.nextEdge) h hr' ht hrest
    | some i =>
      rw [hs] at ht
      obtain ⟨rfl, hdue⟩ := List.cons.inj ht
      rw [step_transferred hs] at hstep
      obtain rfl := Host.Outcome.next.inj (hstep.symm.trans (exec_init_ready (s := s.nextEdge) h))
      obtain ⟨hend, hblocks⟩ := (openMessage_isOpen m s.nextEdge).run hm hr' hdue hrest
      rw [openMessage_blocksSeen] at hblocks
      exact ⟨hend, hblocks⟩

end Sys2Proof.Machine

namespace Sys2Proof

open Sys2Proof.Machine

/-- Settles O47: the run keeps the message open, and in RECV `H` is the chaining value of the blocks that LOAD has seen. -/
theorem openMessageIsHeld : Obligations.OpenMessageIsHeld := by
  intro s u m k hready hlen hr ht hrun hp
  obtain ⟨hopen, hblocks⟩ := hready.run_open (by omega) hr ht hrun
  have hinit : .init ∉ m.map Instr.data := fun h => by
    obtain ⟨_, -, h⟩ := List.mem_map.1 h
    cases h
  have hchain := (hready.chained hr ht hinit hrun).H_eq (by rw [hp]; nofun) (by rw [hp]; nofun)
  have hseen : u.blocksSeen = m.length / 64 := by rw [State.blocksSeen_of_ne (by rw [hp]; nofun), hopen.count]
  refine ⟨hopen.count, hopen.stage, fun i => hopen.bytes hp i i.isLt, ?_⟩
  rw [hchain, hblocks, hseen, chainAfter_eq_chainOver]

end Sys2Proof
end

section
/-! PROOFS of 20_memory.md R63: reading a block after a write. -/

namespace Sys2Proof.Machine

/-- The first `j` of the `n` bytes of a value, where they are what is read, are its upper bytes. -/
theorem memRead_of_bytes {b : Block} {addr n : Nat} (v : BitVec (8 * n)) (h : addr + n ≤ 64)
    (heq : ∀ (k : Nat) (_ : k < n), b[addr + k] = byteOf n v k) {j : Nat} (hj : j ≤ n) :
    memRead b addr j (by omega) = v.extractLsb' (8 * (n - j)) (8 * j) := by
  induction j with
  | zero => exact BitVec.eq_of_zero_length rfl
  | succ j ih =>
    rw [memRead, ih (by omega), heq j hj, byteOf, BitVec.extractLsb'_append_extractLsb'_eq_extractLsb' (by omega),
      show n - 1 - j = n - (j + 1) by omega]
    rfl

/-- Byte `k` of a write stands at `addr + k`. -/
theorem memWrite_getElem_inside (b : Block) {addr n : Nat} (v : BitVec (8 * n)) (h : addr + n ≤ 64) {k : Nat} (hk : k < n) :
    (memWrite b addr n v h)[addr + k] = byteOf n v k := by
  rw [memWrite_getElem, if_pos ⟨Nat.le_add_right _ _, by omega⟩, Nat.add_sub_cancel_left]

/-- What is written is read back. -/
theorem memRead_memWrite (b : Block) (addr n : Nat) (v : BitVec (8 * n)) (h : addr + n ≤ 64) :
    memRead (memWrite b addr n v h) addr n h = v := by
  rw [memRead_of_bytes v h (fun k hk => memWrite_getElem_inside b v h hk) (Nat.le_refl n), Nat.sub_self]
  exact BitVec.extractLsb'_eq_self

end Sys2Proof.Machine

namespace Sys2Proof

open Sys2Proof.Machine

/-- Settles O55: what is read are the bytes written, and a write changes no byte outside it. -/
theorem blockReadAfterWrite : Obligations.BlockReadAfterWrite := by
  refine fun b addr n v h => ⟨memRead_memWrite b addr n v h, fun k hk _ => ?_, fun i hi => ?_⟩
  · rw [memWrite_getElem_inside b v h hk, byteOf, Nat.sub_right_comm]
  · exact memWrite_getElem_outside b addr n v h i i.isLt hi

end Sys2Proof
end

section
/-! PROOFS of 42_padder.md R143 and R144: how many blocks a padded message has, and the limit of its length. -/

namespace Sys2Proof.Machine

theorem length_of_pad {m p : List Byte} (h : pad m = some p) : p.length = 64 * blockCount m.length := by
  have hm : m.length < 2 ^ 61 := by
    by_contra hm
    rw [pad, if_neg hm] at h
    cases h
  obtain rfl := Option.some.inj ((pad_eq_append_padTail hm).symm.trans h)
  rw [List.length_append, padTail_length, zeroCount, blockCount]
  omega

theorem pad_of_too_long {m : List Byte} (h : 2 ^ 61 ≤ m.length) : pad m = none :=
  if_neg (Nat.not_lt_of_le h)

end Sys2Proof.Machine

namespace Sys2Proof

open Sys2Proof.Machine

/-- Settles O43: padding brings the length to whole blocks; past the limit there is nothing to hash. -/
theorem padBlockCount : Obligations.PadBlockCount := by
  refine ⟨fun m p => length_of_pad, fun m hm => ⟨pad_of_too_long hm, ?_⟩, fun n => ?_⟩
  · rw [Machine.hash, pad_of_too_long hm]; rfl
  · unfold blockCount
    omega

end Sys2Proof
end

section
/-! PROOFS of 30_encoding.md R97 and R98: the lines of a command stream and the host that plays them. -/

namespace Sys2Proof.Machine

/-- DATA's word is its byte above 0x100. -/
theorem commandWord_data (b : Byte) : commandWord 0b01#2 b = 0x100#10 + b.setWidth 10 := by
  apply BitVec.eq_of_toNat_eq
  have hb := b.isLt
  rw [commandWord_toNat, BitVec.toNat_add, BitVec.toNat_setWidth, BitVec.toNat_ofNat, BitVec.toNat_ofNat]
  omega

theorem playLines_nil (k : Nat) (s : State) : playLines k [] s = .next s := by
  cases k <;> rfl

theorem playLines_idle_zero (k : Nat) (rest : List StreamLine) (s : State) :
    playLines k (.idle 0 :: rest) s = playLines k rest s := by
  cases k with
  | zero => rfl
  | succ k => rw [playLines, playLines, skipEmpty_idle_zero]

end Sys2Proof.Machine

namespace Sys2Proof

open Sys2Proof.Machine

/-- Settles O58: each line's edge by the host's definition, DATA's word by its fields. -/
theorem linesAreOfferedUntilTransferred : Obligations.LinesAreOfferedUntilTransferred := by
  refine ⟨fun l w rest h => ?_, fun ready rest => ?_, fun k rest s => ⟨playLines_nil k s, playLines_idle_zero k rest s⟩,
    rfl, rfl, rfl, fun m => rfl⟩
  · obtain ⟨rfl, rfl⟩ | ⟨b, rfl, rfl⟩ | ⟨rfl, rfl⟩ | ⟨rfl, rfl⟩ := h
    · exact ⟨rfl, rfl⟩
    · rw [← commandWord_data]; exact ⟨rfl, rfl⟩
    · exact ⟨rfl, rfl⟩
    · exact ⟨rfl, rfl⟩
  · exact ⟨rfl, rfl, fun n => rfl, rfl, rfl, rfl, rfl⟩

end Sys2Proof
end

section
/-! PROOFS of 41_constant_tables.md R130 and R131: the words of the two ROMs are roots of the first primes. -/

namespace Sys2Proof.Machine

/-- The primes whose roots the ROMs hold. -/
def romPrimes : Vector Nat 64 :=
  #v[2, 3, 5, 7, 11, 13, 17, 19, 23, 29, 31, 37, 41, 43, 47, 53, 59, 61, 67, 71, 73, 79, 83, 89, 97, 101, 103, 107, 109, 113,
    127, 131, 137, 139, 149, 151, 157, 163, 167, 173, 179, 181, 191, 193, 197, 199, 211, 223, 227, 229, 233, 239, 241, 251,
    257, 263, 269, 271, 277, 281, 283, 293, 307, 311]

/-- They are the numbers from 2 to 311 without a smaller factor. -/
theorem romPrimes_toList : romPrimes.toList = (List.range 312).filter fun p => 2 ≤ p ∧ p.minFac = p := by
  decide +kernel

/-- They are all the primes below 312. -/
theorem mem_romPrimes (p : Nat) : p ∈ romPrimes ↔ p < 312 ∧ p.Prime := by
  rw [← Vector.mem_toList_iff, romPrimes_toList, List.mem_filter, List.mem_range, decide_eq_true_iff, Nat.prime_def_minFac]

theorem romPrimes_rising (i : Fin 63) : romPrimes[i.val] < romPrimes[i.val + 1] := by
  revert i
  decide

/-- `w` is the first 32 bits of the fractional part of the `k`-th root of `p`, whose integer part is `a`. -/
def IsRootWord (k p a : Nat) (w : Word) : Prop :=
  (a * 2 ^ 32 + w.toNat) ^ k ≤ p * 2 ^ (32 * k) ∧ p * 2 ^ (32 * k) < (a * 2 ^ 32 + w.toNat + 1) ^ k

/-- The square roots of the first eight primes are below 5 (R130). -/
theorem iv_isRootWord (i : Fin 8) : ∃ a < 5, IsRootWord 2 romPrimes[i.val] a IV[i] := by
  revert i
  unfold IsRootWord
  decide +kernel

/-- The cube roots of the 64 primes are below 7 (R131). -/
theorem k_isRootWord (j : Fin 64) : ∃ a < 7, IsRootWord 3 romPrimes[j] a K[j] := by
  revert j
  unfold IsRootWord
  decide +kernel

/-- The 32 bits below the point of a root are the word. -/
theorem root_mod (a : Nat) (w : Word) : w.toNat = (a * 2 ^ 32 + w.toNat) % 2 ^ 32 := by
  rw [Nat.mul_add_mod_self_right, Nat.mod_eq_of_lt w.isLt]

end Sys2Proof.Machine

namespace Sys2Proof

open Sys2Proof.Machine

/-- Settles O59: with its root's integer part before it, each word is the largest number whose power does not exceed the scaled
prime. -/
theorem romWordsAreRootsOfPrimes : Obligations.RomWordsAreRootsOfPrimes := by
  refine ⟨romPrimes, mem_romPrimes, romPrimes_rising, fun i => ?_, fun j => ?_⟩
  · obtain ⟨a, -, hle, hlt⟩ := iv_isRootWord i
    rw [pow_two] at hle hlt
    rw [← Nat.eq_sqrt.2 ⟨hle, hlt⟩]
    exact root_mod a _
  · obtain ⟨a, -, hle, hlt⟩ := k_isRootWord j
    exact ⟨_, hle, hlt, root_mod a _⟩

end Sys2Proof
end
